-- ==== Sys2Proof/Word.lean ====
section
/-! DEFINITION. The byte and word types of the machine and their plainest arithmetic (spec/00_scope.md rule R8). -/

namespace Sys2Proof

/-- One byte of memory, of an instruction or of a device stream (R4: byte size 8 bits). -/
abbrev Byte := BitVec 8

/-- A 16-bit value: a general register, `pc`, `sp`, an address, an immediate (R4). Always unsigned (R93). -/
abbrev Word := BitVec 16

/-- `add16(a, b)` of R8: the sum modulo 65536. -/
abbrev add16 (a b : Word) : Word := a + b

/-- `sub16(a, b)` of R8: the difference modulo 65536. -/
abbrev sub16 (a b : Word) : Word := a - b

end Sys2Proof
end

