-- ==== Sys2Proof/Syntax.lean ====
section
/-! DEFINITION. The 18 instructions (spec/30_encoding.md rule R60), one constructor of `Instr` per row of
spec/opcode_table.json, and their operand forms (R66). -/

namespace Sys2Proof

/-- A register operand after the one check at decode time (R64, R69): a general register, or the byte of
an out-of-range operand, kept so that an instruction can be encoded again. -/
inductive RegOperand where
  /-- The byte was 0 to 7: general register `x[r]`. -/
  | gpr (r : Fin 8)
  /-- The byte was 8 to 255: the instruction is a no-op (R69). -/
  | outOfRange (b : Byte)
  deriving DecidableEq, Repr

/-- The mnemonics of R60, in the source's table order. -/
inductive Mnemonic where
  | load | add | sub | loadm | store | jmp | jz | print | cmp
  | push | pop | call | ret | inp | out | loadr | storer | halt
  deriving DecidableEq, Repr

/-- Every mnemonic, in table order (R60). -/
def Mnemonic.all : List Mnemonic :=
  [.load, .add, .sub, .loadm, .store, .jmp, .jz, .print, .cmp,
   .push, .pop, .call, .ret, .inp, .out, .loadr, .storer, .halt]

/-- An instruction with its operands, in the order of the table's Operands column (R60). -/
inductive Instr where
  /-- `LOAD reg, imm16` (R80). -/
  | load (reg : RegOperand) (imm : Word)
  /-- `ADD r1, r2` (R90). -/
  | add (r1 r2 : RegOperand)
  /-- `SUB r1, r2` (R91). -/
  | sub (r1 r2 : RegOperand)
  /-- `LOADM reg, addr16` (R81). -/
  | loadm (reg : RegOperand) (addr : Word)
  /-- `STORE reg, addr16` (R82). -/
  | store (reg : RegOperand) (addr : Word)
  /-- `JMP addr16` (R100). -/
  | jmp (addr : Word)
  /-- `JZ addr16` (R101). -/
  | jz (addr : Word)
  /-- `PRINT reg` (R121). -/
  | print (reg : RegOperand)
  /-- `CMP r1, r2` (R92). -/
  | cmp (r1 r2 : RegOperand)
  /-- `PUSH reg` (R112). -/
  | push (reg : RegOperand)
  /-- `POP reg` (R113). -/
  | pop (reg : RegOperand)
  /-- `CALL addr16` (R102). -/
  | call (addr : Word)
  /-- `RET` (R103). -/
  | ret
  /-- `IN reg` (R122). -/
  | inp (reg : RegOperand)
  /-- `OUT reg` (R123). -/
  | out (reg : RegOperand)
  /-- `LOADR rdest, raddr` (R83). -/
  | loadr (rdest raddr : RegOperand)
  /-- `STORER rval, raddr` (R84). -/
  | storer (rval raddr : RegOperand)
  /-- `HALT` (R104). -/
  | halt
  deriving DecidableEq, Repr

/-- The row of the table an instruction belongs to. -/
def Instr.mnemonic : Instr → Mnemonic
  | .load _ _ => .load
  | .add _ _ => .add
  | .sub _ _ => .sub
  | .loadm _ _ => .loadm
  | .store _ _ => .store
  | .jmp _ => .jmp
  | .jz _ => .jz
  | .print _ => .print
  | .cmp _ _ => .cmp
  | .push _ => .push
  | .pop _ => .pop
  | .call _ => .call
  | .ret => .ret
  | .inp _ => .inp
  | .out _ => .out
  | .loadr _ _ => .loadr
  | .storer _ _ => .storer
  | .halt => .halt

/-- The register operands of an instruction, in operand order. -/
def Instr.regOperands : Instr → List RegOperand
  | .load r _ => [r]
  | .add a b => [a, b]
  | .sub a b => [a, b]
  | .loadm r _ => [r]
  | .store r _ => [r]
  | .jmp _ => []
  | .jz _ => []
  | .print r => [r]
  | .cmp a b => [a, b]
  | .push r => [r]
  | .pop r => [r]
  | .call _ => []
  | .ret => []
  | .inp r => [r]
  | .out r => [r]
  | .loadr a b => [a, b]
  | .storer a b => [a, b]
  | .halt => []

end Sys2Proof
end

