-- ==== Sys2Proof/WellFormed.lean ====
section
/-! DEFINITION. When an instruction term stands for an encoding: a register operand called out of range really is
one (spec/30_encoding.md rules R64, R69, R71). Every other field admits every value (R65, R71). -/

namespace Sys2Proof

/-- A register index 0 to 7 is always legal (R64); an out-of-range operand holds a byte of 8 or more (R69), so
that no byte has two readings. -/
def RegOperand.wellFormed : RegOperand → Bool
  | .gpr _ => true
  | .outOfRange b => decide (8 ≤ b.toNat)

/-- Every register operand is well formed; 16-bit operands have no reserved value (R71). -/
def Instr.wellFormed (i : Instr) : Bool := i.regOperands.all RegOperand.wellFormed

end Sys2Proof
end

