-- ==== Sys2Proof/Decode.lean ====
section
/-! DEFINITION. The encoding tables of spec/30_encoding.md, the decoder, total on any bytes and rejecting by name,
and the encoder written from the same tables. -/

namespace Sys2Proof

/-! ### Bytes of a word (R8, R30, R31) -/

/-- `hi ++ lo` of R8: a word from its two bytes. -/
def wordOfBytes (lo hi : Byte) : Word := hi ++ lo

/-- `v[7:0]`. -/
def lowByte (v : Word) : Byte := v.extractLsb' 0 8

/-- `v[15:8]`. -/
def highByte (v : Word) : Byte := v.extractLsb' 8 8

/-- `zext_16(b)` of R8: bits 15 to 8 zero. -/
def zext16 (b : Byte) : Word := b.setWidth 16

/-! ### The opcode map and the formats (R62, R67) -/

/-- The parameter `OPC` of R4: the opcode byte of each instruction, `0x01` to `0x12` in table order (R67).
UNVERIFIED, unsafe for images built elsewhere: the spec's decision D1, the source gives no value (log 1). -/
def Config.opc : Mnemonic → Byte
  | .load => 0x01#8
  | .add => 0x02#8
  | .sub => 0x03#8
  | .loadm => 0x04#8
  | .store => 0x05#8
  | .jmp => 0x06#8
  | .jz => 0x07#8
  | .print => 0x08#8
  | .cmp => 0x09#8
  | .push => 0x0A#8
  | .pop => 0x0B#8
  | .call => 0x0C#8
  | .ret => 0x0D#8
  | .inp => 0x0E#8
  | .out => 0x0F#8
  | .loadr => 0x10#8
  | .storer => 0x11#8
  | .halt => 0x12#8

/-- The mnemonic an opcode byte stands for, if it is one of the 18 (R63, R67, R68). -/
def mnemonicOf? (op : Byte) : Option Mnemonic := Mnemonic.all.find? fun m => Config.opc m == op

/-- How a register operand lies in an instruction: how many whole bytes it takes, and how many low bits of the first
of them are the index. -/
structure RegOperandField where
  bytes : Nat
  indexBits : Nat
  deriving DecidableEq, Repr

/-- The parameter "register operand field" of R4: one byte, and the whole byte is the index (R62, R64).
UNVERIFIED, unsafe: the spec's decision D2 (log 2). -/
def Config.regOperandField : RegOperandField := { bytes := 1, indexBits := 8 }

/-- The operand formats of R62. -/
inductive Format where
  /-- No operand. -/
  | n
  /-- One register. -/
  | r
  /-- Two registers. -/
  | rr
  /-- A 16-bit address. -/
  | a
  /-- A register, then a 16-bit immediate or address. -/
  | ri
  deriving DecidableEq, Repr

/-- How many register operands a format has; they come before its 16-bit operand (R61, R62). -/
def Format.regs : Format → Nat
  | .n => 0
  | .r => 1
  | .rr => 2
  | .a => 0
  | .ri => 1

/-- How many 16-bit operands a format has (R62). -/
def Format.words : Format → Nat
  | .n => 0
  | .r => 0
  | .rr => 0
  | .a => 1
  | .ri => 1

/-- The length in bytes of a format (R62): the opcode byte, the register operand fields, the 16-bit operands. -/
def Format.length (f : Format) : Nat := 1 + f.regs * Config.regOperandField.bytes + 2 * f.words

/-- The format of an instruction (R62). -/
def Mnemonic.format : Mnemonic → Format
  | .load => .ri
  | .add => .rr
  | .sub => .rr
  | .loadm => .ri
  | .store => .ri
  | .jmp => .a
  | .jz => .a
  | .print => .r
  | .cmp => .rr
  | .push => .r
  | .pop => .r
  | .call => .a
  | .ret => .n
  | .inp => .r
  | .out => .r
  | .loadr => .rr
  | .storer => .rr
  | .halt => .n

/-- The length in bytes of an instruction, by its format (R62): with one byte to a register operand, `N` 1, `R` 2, `RR` and
`A` 3, `RI` 4. -/
def Mnemonic.length (m : Mnemonic) : Nat := m.format.length

/-- The length of an instruction is its mnemonic's: the opcode byte alone fixes it (R61). -/
def Instr.length (i : Instr) : Nat := i.mnemonic.length

/-! ### Register operands (R64, R69) -/

/-- The one check of a register operand, made at decode time on the byte that holds its index (R69). All the index bits take
part (R64). -/
def regOperandOf (b : Byte) : RegOperand :=
  let index := b.toNat % 2 ^ Config.regOperandField.indexBits
  if h : index < 8 then .gpr ⟨index, h⟩ else .outOfRange b

/-- The byte that holds a register operand's index. -/
def regByte : RegOperand → Byte
  | .gpr r => BitVec.ofNat 8 r.val
  | .outOfRange b => b

/-- The bytes of a register operand. -/
def regBytes (r : RegOperand) : List Byte := regByte r :: List.replicate (Config.regOperandField.bytes - 1) 0

/-! ### The decoder -/

/-- Register operand `k`, the first one `0`, of an instruction's operand bytes (R61, R62). -/
def regAt (operands : List Byte) (k : Nat) : RegOperand :=
  regOperandOf (operands.getD (k * Config.regOperandField.bytes) 0)

/-- The 16-bit operand, low byte first, after the register operands of format `f` (R30, R61, R62). -/
def wordAt (operands : List Byte) (f : Format) : Word :=
  let k := f.regs * Config.regOperandField.bytes
  wordOfBytes (operands.getD k 0) (operands.getD (k + 1) 0)

/-- The instruction of a mnemonic with its operand bytes (R62). Bytes beyond its format are not looked at. -/
def Mnemonic.build (m : Mnemonic) (operands : List Byte) : Instr :=
  let r0 := regAt operands 0
  let r1 := regAt operands 1
  let w := wordAt operands m.format
  match m with
  | .load => .load r0 w
  | .add => .add r0 r1
  | .sub => .sub r0 r1
  | .loadm => .loadm r0 w
  | .store => .store r0 w
  | .jmp => .jmp w
  | .jz => .jz w
  | .print => .print r0
  | .cmp => .cmp r0 r1
  | .push => .push r0
  | .pop => .pop r0
  | .call => .call w
  | .ret => .ret
  | .inp => .inp r0
  | .out => .out r0
  | .loadr => .loadr r0 r1
  | .storer => .storer r0 r1
  | .halt => .halt

/-- Why a list of bytes is no instruction. -/
inductive DecodeRejection where
  /-- There is no opcode byte. -/
  | noBytes
  /-- The first byte is not one of the 18 opcodes (R68). -/
  | illegalOpcode (op : Byte)
  /-- The bytes end before the instruction's operands do. -/
  | truncated (m : Mnemonic)
  deriving DecidableEq, Repr

/-- The instruction at the head of a list of bytes, and the bytes after it. -/
def decode : List Byte → Except DecodeRejection (Instr × List Byte)
  | [] => .error .noBytes
  | op :: rest =>
    match mnemonicOf? op with
    | none => .error (.illegalOpcode op)
    | some m =>
      if rest.length < m.length - 1 then .error (.truncated m)
      else .ok (m.build rest, rest.drop (m.length - 1))

/-! ### The encoder -/

/-- The bytes of a 16-bit operand, low byte first (R30). -/
def wordBytes (w : Word) : List Byte := [lowByte w, highByte w]

/-- The bytes of an instruction: opcode, then the operands in order, a 16-bit operand low byte first (R61, R62). -/
def encode : Instr → List Byte
  | .load r w => Config.opc .load :: regBytes r ++ wordBytes w
  | .add a b => Config.opc .add :: regBytes a ++ regBytes b
  | .sub a b => Config.opc .sub :: regBytes a ++ regBytes b
  | .loadm r w => Config.opc .loadm :: regBytes r ++ wordBytes w
  | .store r w => Config.opc .store :: regBytes r ++ wordBytes w
  | .jmp w => Config.opc .jmp :: wordBytes w
  | .jz w => Config.opc .jz :: wordBytes w
  | .print r => Config.opc .print :: regBytes r
  | .cmp a b => Config.opc .cmp :: regBytes a ++ regBytes b
  | .push r => Config.opc .push :: regBytes r
  | .pop r => Config.opc .pop :: regBytes r
  | .call w => Config.opc .call :: wordBytes w
  | .ret => [Config.opc .ret]
  | .inp r => Config.opc .inp :: regBytes r
  | .out r => Config.opc .out :: regBytes r
  | .loadr a b => Config.opc .loadr :: regBytes a ++ regBytes b
  | .storer a b => Config.opc .storer :: regBytes a ++ regBytes b
  | .halt => [Config.opc .halt]

/-! ### Words numbered as spec/opcode_table.json numbers them -/

/-- Byte `k` of a number, `k` counted from its least significant byte. -/
def byteOfNat (w k : Nat) : Byte := BitVec.ofNat 8 (w / 256 ^ k)

/-- The byte is an opcode of an instruction of `n` bytes. -/
def opcodeOfLength (op : Byte) (n : Nat) : Bool :=
  match mnemonicOf? op with
  | some m => m.length == n
  | none => false

/-- The length of the longest instruction. -/
def maxLength : Nat := max Format.rr.length Format.ri.length

/-- The bytes, in address order, of a table word of `nbits` bits, zeros after it up to the longest instruction. The table's own `match` and
`fixed` put `b0` in the row's MOST significant byte; where the byte there is no opcode of that length, but the least
significant byte is, the word is read with `b0` in its least significant byte. DEDUCED, safe (log 23). -/
def tableBytes (nbits w : Nat) : List Byte :=
  let n := nbits / 8
  let msbFirst := (List.range maxLength).map fun k => if k < n then byteOfNat w (n - 1 - k) else 0
  let lsbFirst := (List.range maxLength).map fun k => if k < n then byteOfNat w k else 0
  if opcodeOfLength (msbFirst.headD 0) n then msbFirst
  else if opcodeOfLength (lsbFirst.headD 0) n then lsbFirst
  else msbFirst

/-- What the decoder reads from a table word (the host's interface). -/
def decodeTableWord (nbits w : Nat) : Option Instr :=
  match decode (tableBytes nbits w) with
  | .ok (i, _) => some i
  | .error _ => none

end Sys2Proof
end

