-- ==== Sys2Proof/Machine/Devices.lean ====
section
/-! DEFINITION. The data types of the step outcome and of the attached devices (spec/10_state.md rules R18, R20;
spec/60_exceptions.md rule R130). -/

namespace Sys2Proof.Machine

/-- What a step returns to the host on port `OUTCOME` (R7, R130). -/
inductive StepOutcome where
  /-- An instruction executed and the machine can be stepped again. -/
  | continued
  /-- `HALT`, end-of-input on a headless `IN`, or a step with `running = 0`. -/
  | halted
  /-- An interactive `IN` found the Input Queue empty. -/
  | blocked
  /-- The byte `op`, fetched at `addr`, is not an opcode. -/
  | decodeError (op : Byte) (addr : Word)
  deriving DecidableEq, Repr

/-- The Input Queue (R18): a ring of 64 byte codes and two indices modulo 64. -/
structure InputQueue where
  buf : Vector Byte 64
  head : Fin 64
  tail : Fin 64
  deriving DecidableEq, Repr, Inhabited

/-- One entry of the disk store: a 16-byte name and the payload (R20, R158). Its size is the payload's length; its
file offset is layout and out of scope (log 19). -/
structure DirEntry where
  name : Vector Byte 16
  payload : List Byte
  deriving DecidableEq, Repr

end Sys2Proof.Machine
end

