-- ==== Sys2Proof/Config.lean ====
section
/-! DEFINITION. The parameters of the block (spec/00_scope.md rule R4) and the values the spec leaves free. The
parameters of its "decided" rows stand beside their use, where a repair may mend them: `Config.opc` (D1) and
`Config.regOperandField` (D2) in Decode.lean, `Config.dataByteOrder` (D4) and `Config.addressArithmetic` (D5) in
Machine/Ops.lean, `Config.regOorPolicy` (D3) in Machine/Operands.lean, `Config.dispatchGranularity` (D8) in
Machine/Disk.lean, `Config.consoleClearByte` (D18) in Machine/Console.lean; `Config.spReset` (D6) stands here, since reset
uses it. -/

namespace Sys2Proof.Config

/-- `MEMSIZE` (R4). -/
abbrev memSize : Nat := 65536

/-- `DISK_CMD_ADDR` (R4, R16). -/
abbrev diskCmdAddr : Word := 0xE000#16

/-- `DISK_NAME_PTR_ADDR` (R4, R16). -/
abbrev diskNamePtrAddr : Word := 0xE002#16

/-- `DISK_DATA_PTR_ADDR` (R4, R16). -/
abbrev diskDataPtrAddr : Word := 0xE004#16

/-- `DISK_SIZE_ADDR` (R4, R16). -/
abbrev diskSizeAddr : Word := 0xE006#16

/-- `DISPLAY_BASE` (R4, R40). -/
abbrev displayBase : Nat := 0xF000

/-- `DISPLAY_COLS` (R4). -/
abbrev displayCols : Nat := 80

/-- `DISPLAY_ROWS` (R4). -/
abbrev displayRows : Nat := 30

/-- `SP_RESET` (R4, R23). UNVERIFIED, unsafe: the source says "top-of-memory minus 2"; the number is the spec's
decision D6 (log 6). -/
abbrev spReset : Word := 0xFFFE#16

/-- The codes the queue holds and still reads as non-empty (R172). -/
abbrev inqMaxPending : Nat := 63

/-- The entries a `u16` `entry_count` can count (R158). -/
abbrev maxStoreEntries : Nat := 65535

/-- Free value: whether the store can be opened or created for the `n`-th disk command (R151, decision D21: a draw per
command). No body, so no claim can rest on it. DESIGN CHOICE of the form, safe (log 13). -/
opaque storageFails : Nat → Bool

/-- Free value: the queue after an enqueue with 63 or more codes pending, the `OPEN` parameter `INQ_OVERFLOW` (R172,
decision D19). DESIGN CHOICE of the form, safe (log 14). -/
opaque inqOverflow : Machine.InputQueue → Byte → Machine.InputQueue

/-- Free value: the store after Write-by-name appends to a store that already holds 65535 entries (R158: "what happens
beyond is not stated"). DESIGN CHOICE of the form, safe (log 15). -/
opaque storeOverflow : List Machine.DirEntry → Machine.DirEntry → List Machine.DirEntry

end Sys2Proof.Config
end

