-- ==== Sys2Proof/Machine/State.lean ====
section
/-! DEFINITION. The whole state of the machine and its attached devices (spec/10_state.md), the reasons a step can stop,
and reset (R23, R180). -/

namespace Sys2Proof.Machine

/-- Memory: the listed bytes, addresses strictly rising, no byte equal to what an unlisted address reads as
(`Memory.wf` in Ops.lean). -/
abbrev Memory := List Host.Cell

/-- Everything the spec gives the machine, and the model's own fields `outcome`, `diskDraws` and `loaded`. -/
structure State where
  /-- `x[0]` to `x[7]` (R10). -/
  regs : Vector Word 8
  /-- `pc` (R11): between steps, the address of the next opcode byte. -/
  pc : Word
  /-- `sp` (R12): the free cell below the last value pushed. -/
  sp : Word
  /-- `zero_flag`, `Z` (R13). -/
  zeroFlag : Bool
  /-- `running` (R14). -/
  running : Bool
  /-- `interactive` (R15). -/
  interactive : Bool
  /-- `mem` (R17): code, data, stack, device registers and display window. -/
  mem : Memory
  /-- The Input Queue (R18). -/
  inq : InputQueue
  /-- `cur_x` (R19): the console cursor's column. -/
  curX : Nat
  /-- `cur_y` (R19): the console cursor's row. -/
  curY : Nat
  /-- The disk store (R20), oldest entry first. -/
  store : List DirEntry
  /-- Headless input bytes supplied on `HIN` and not yet read, oldest first (R21). -/
  hin : List Byte
  /-- The environment has signalled end-of-input on `HIN` (R21, R122). -/
  hinEnded : Bool
  /-- Bytes written on `HOUT`, oldest first (R21, R123). -/
  hout : List Byte
  /-- Values emitted on `DIAG`, oldest first (R21, R121). -/
  diag : List Word
  /-- The MODEL's own field: what `OUTCOME` shows after the last step, none before the first (R7, R22, R130; log 10). -/
  outcome : Option StepOutcome
  /-- The MODEL's own field: how many disk commands have drawn their storage outcome (R151; log 13). -/
  diskDraws : Nat
  /-- The MODEL's own field: the host has loaded an image (R184: `load` is called once). Only the host's `load` reads or
  writes it (log 31). -/
  loaded : Bool
  deriving DecidableEq, Repr

/-- Why the machine, or a host operation, stops. -/
inductive Fault where
  /-- Raised by a headless `IN` when the environment has neither supplied a byte nor ended the stream: the step does not
  return (R122 c, U20). A stuck state, named: the same step completes once the host has supplied input. Safe (log 12). -/
  | hinNoAnswer
  /-- Raised by the host operation `load` on an image of `n` > 65536 bytes: `LoadError`, memory untouched (R132, R184). The
  spec's own stop, neither safe nor unsafe. -/
  | loadError (n : Nat)
  deriving DecidableEq, Repr

/-- What has no meaning. -/
inductive Refusal where
  /-- Raised by `exec` alone, for an instruction without a meaning yet. Safe. -/
  | notModelled (mnemonic : String)
  /-- Raised by the host operation `enqueue` in headless mode, which the spec does not admit (R175, U17). Safe (log 24). -/
  | enqueueHeadless
  /-- Raised by the host operation `supplyHin` after end-of-input, which the spec does not describe (R21). Safe (log 24). -/
  | inputAfterEnd
  /-- Raised by the host operation `load` after a load or after a step, which the spec does not admit (R175, R184, D24: "is
  refused by the model", U17). Safe (log 24). -/
  | loadNotAdmitted
  /-- Raised by the host operations `supplyHin` and `endHin` in interactive mode: the byte-oriented input source is headless
  mode's (R175, R7). Safe (log 24). -/
  | inputInteractive
  deriving DecidableEq, Repr

/-- What a step, a meaning or a host operation answers. -/
abbrev Result := Host.Outcome State Fault Refusal

/-- `initialize(interactive)` (R180, R23), with the disk store that reset does not touch (R23). `inq_buf`, the streams,
`outcome`, `diskDraws` and `loaded` take values the spec does not state: DESIGN CHOICE, unsafe (log 7, 10, 11, 13, 31). -/
def State.initialize (interactive : Bool) (store : List DirEntry) : State where
  regs := Vector.replicate 8 0#16
  pc := 0#16
  sp := Config.spReset
  zeroFlag := false
  running := true
  interactive := interactive
  mem := []
  inq := { buf := Vector.replicate 64 0#8, head := 0, tail := 0 }
  curX := 0
  curY := 0
  store := store
  hin := []
  hinEnded := false
  hout := []
  diag := []
  outcome := none
  diskDraws := 0
  loaded := false

/-- The machine right after `initialize(true)` on a fresh store. That the mode is interactive and the store empty is a
DESIGN CHOICE, unsafe (log 8, 9): the spec takes both from outside (R23). -/
def State.reset : State := State.initialize true []

end Sys2Proof.Machine
end

