-- ==== Sys2Proof/Machine/Ops.lean ====
section
/-! DEFINITION. The named operations over memory and registers, and the one exception's entry
(spec/00_scope.md rule R8, spec/20_memory.md, spec/60_exceptions.md rule R133). -/

namespace Sys2Proof.Machine

/-! ### The byte order of data and the arithmetic of addresses -/

/-- Which byte of a 16-bit value lies at the lower address. -/
inductive ByteOrder where
  | little
  | big
  deriving DecidableEq, Repr

/-- What the arithmetic of addresses does past either end of memory: go on at the other end, or stay at the end, which D5
names as what the original may do. -/
inductive AddressArithmetic where
  | modulo
  | clamp
  deriving DecidableEq, Repr

end Sys2Proof.Machine

namespace Sys2Proof

/-- The parameter "data byte order in memory" of R4, for every 16-bit access: loads, stores, stack cells, argument registers,
the size write-back (R31). UNVERIFIED, unsafe: the spec's decision D4 (log 4). -/
def Config.dataByteOrder : Machine.ByteOrder := .little

/-- The parameter "address arithmetic" of R4, for the advance of `pc`, operand fetch, the second byte of a 16-bit access, `sp`
moves and device pointers (R36, R72). UNVERIFIED, unsafe: the spec's decision D5 (log 5). -/
def Config.addressArithmetic : Machine.AddressArithmetic := .modulo

end Sys2Proof

namespace Sys2Proof.Machine

/-- The byte of a 16-bit value that lies at the lower address. -/
def firstByte (v : Word) : Byte :=
  match Config.dataByteOrder with
  | .little => lowByte v
  | .big => highByte v

/-- The byte of a 16-bit value that lies at the higher address. -/
def secondByte (v : Word) : Byte :=
  match Config.dataByteOrder with
  | .little => highByte v
  | .big => lowByte v

/-- The 16-bit value of two bytes in address order. -/
def wordInMemory (first second : Byte) : Word :=
  match Config.dataByteOrder with
  | .little => wordOfBytes first second
  | .big => wordOfBytes second first

/-- The address `n` above `a`. -/
def addrAdd (a n : Word) : Word :=
  match Config.addressArithmetic with
  | .modulo => add16 a n
  | .clamp => BitVec.ofNat 16 (min (a.toNat + n.toNat) 0xFFFF)

/-- The address `n` below `a`. -/
def addrSub (a n : Word) : Word :=
  match Config.addressArithmetic with
  | .modulo => sub16 a n
  | .clamp => BitVec.ofNat 16 (a.toNat - n.toNat)

/-! ### Memory as a list -/

/-- What an address that is not listed reads as: memory is zero after reset (R23). -/
def Memory.unlisted : Byte := 0#8

/-- The canonical form: addresses strictly rising and below `MEMSIZE`, no byte equal to `Memory.unlisted`. -/
def Memory.wf (m : Memory) : Bool :=
  decide (m.Pairwise fun c d => c.1 < d.1) &&
    m.all fun c => decide (c.1 < Config.memSize) && decide (c.2 ≠ Memory.unlisted)

/-- The byte at an address (R17). -/
def Memory.read : Memory → Nat → Byte
  | [], _ => Memory.unlisted
  | (k, v) :: t, a => if k = a then v else Memory.read t a

/-- The memory with one byte changed, in canonical form again. -/
def Memory.write : Memory → Nat → Byte → Memory
  | [], a, b => if b = Memory.unlisted then [] else [(a, b)]
  | (k, v) :: t, a, b =>
    if a < k then (if b = Memory.unlisted then (k, v) :: t else (a, b) :: (k, v) :: t)
    else if a = k then (if b = Memory.unlisted then t else (a, b) :: t)
    else (k, v) :: Memory.write t a b

/-- The memory with a run of bytes written from `a` upward, one after another (R48). -/
def Memory.writeRun : Memory → Word → List Byte → Memory
  | m, _, [] => m
  | m, a, b :: bs => Memory.writeRun (m.write a.toNat b) (addrAdd a 1) bs

/-! ### Memory accesses of the engine and the devices -/

/-- `MemRead(a, 1)`: the byte at `a` (R33). A read changes nothing (R39). -/
def State.readByte (s : State) (a : Word) : Byte := s.mem.read a.toNat

/-- `MemRead(a, 2)`: the bytes at `a` and at the next address, in the byte order of data (R31, R33, R36). -/
def State.readWord (s : State) (a : Word) : Word := wordInMemory (s.readByte a) (s.readByte (addrAdd a 1))

/-- `n` bytes from `a` upward (R48). -/
def State.readBytes (s : State) (a : Word) (n : Nat) : List Byte :=
  (List.range n).map fun j => s.readByte (addrAdd a (BitVec.ofNat 16 j))

/-- `RawWrite(a, b)`: a byte write that never dispatches (R8, R45). -/
def State.rawWrite (s : State) (a : Word) (b : Byte) : State := { s with mem := s.mem.write a.toNat b }

/-- Raw writes of a run of bytes from `a` upward, in order (R156). -/
def State.rawWrites (s : State) (a : Word) (bs : List Byte) : State := { s with mem := s.mem.writeRun a bs }

/-- The two byte writes of an engine store, the lower address first, before the dispatch check (R31, R34). -/
def State.storeBytes (s : State) (a v : Word) : State :=
  (s.rawWrite a (firstByte v)).rawWrite (addrAdd a 1) (secondByte v)

/-! ### Registers -/

/-- `x[r]` (R8, R10). -/
def State.reg (s : State) (r : Fin 8) : Word := s.regs[r]

/-- `x[r] <- v` (R8, R10): no register is hard-wired. -/
def State.setReg (s : State) (r : Fin 8) (v : Word) : State := { s with regs := s.regs.set r v }

/-! ### The step's bookkeeping -/

/-- The machine after the bytes of an instruction with mnemonic `m` are fetched: `pc` is `pc_next` (R9, R11), and the
outcome is `Continued` unless the instruction's rule says otherwise (R8). -/
def State.advance (s : State) (m : Mnemonic) : State :=
  { s with pc := addrAdd s.pc (BitVec.ofNat 16 m.length), outcome := some .continued }

/-- A stop with outcome `Halted` and `running <- 0` (R104, R122). -/
def State.stopHalted (s : State) : State := { s with running := false, outcome := some .halted }

/-- TAKING THE ONE EXCEPTION, `DecodeError` (R133, R137): `pc` is left at, or put back to, the address the opcode byte was
read from, `running` is cleared, the opcode and its address travel in the outcome. There is no saved register, no handler
and no return from it (R138), so no operation stands beside this one.
UNVERIFIED, unsafe for claims about `pc` after it: `pc = pc0` is the spec's decision D12 (log 21). -/
def State.raiseDecodeError (s : State) (op : Byte) (pc0 : Word) : State :=
  { s with pc := pc0, running := false, outcome := some (.decodeError op pc0) }

end Sys2Proof.Machine
end

