-- ==== Sys2Proof/Machine/Flags.lean ====
section
/-! DEFINITION. The one flag, `zero_flag` (spec/10_state.md rule R13): set from a 16-bit result by `ADD` and `SUB`, from an
equality test by `CMP`, written by nothing else. -/

namespace Sys2Proof.Machine

/-- `Z <- (v = 0) ? 1 : 0` on the wrapped 16-bit result (R90, R91). -/
def State.setZeroOf (s : State) (v : Word) : State := { s with zeroFlag := decide (v = 0#16) }

/-- `Z <- (a = b) ? 1 : 0` (R92). -/
def State.setZeroEq (s : State) (a b : Word) : State := { s with zeroFlag := decide (a = b) }

end Sys2Proof.Machine
end

