-- ==== Sys2Proof/Machine/Operands.lean ====
section
/-! DEFINITION. The operand forms (spec/30_encoding.md rule R66) and the out-of-range rule (R69). An immediate
and an absolute address are the 16-bit operand itself (R65); a register operand is resolved here, once for
every instruction. -/

namespace Sys2Proof.Machine

/-- The two policies the source admits for a register index of 8 or more (R69, U1). -/
inductive RegOorPolicy where
  | noop
  | reject
  deriving DecidableEq, Repr

end Sys2Proof.Machine

namespace Sys2Proof

/-- The parameter `REG_OOR_POLICY` of R4: this hardware takes `noop` (R69). UNVERIFIED, unsafe: the spec's
decision D3 (log 3). -/
def Config.regOorPolicy : Machine.RegOorPolicy := .noop

end Sys2Proof

namespace Sys2Proof.Machine

/-- An instruction with an out-of-range register operand (R69): all its bytes are fetched and it does nothing else.
Under the other policy, which this hardware does not take, it would be a decode error (U1). -/
def regOutOfRange (m : Mnemonic) (s : State) : Result :=
  match Config.regOorPolicy with
  | .noop => .next (s.advance m)
  | .reject => .next (s.raiseDecodeError (Config.opc m) s.pc)

/-- An instruction with one register operand: the check of R69 comes before anything the instruction does (R136), then
`body` runs with `pc = pc_next`. -/
def withReg (m : Mnemonic) (r : RegOperand) (s : State) (body : Fin 8 → State → Result) : Result :=
  match r with
  | .gpr i => body i (s.advance m)
  | .outOfRange _ => regOutOfRange m s

/-- An instruction with two register operands: one bad index is enough, whichever it is (R69). -/
def withRegs (m : Mnemonic) (r1 r2 : RegOperand) (s : State) (body : Fin 8 → Fin 8 → State → Result) : Result :=
  match r1 with
  | .gpr i =>
    match r2 with
    | .gpr j => body i j (s.advance m)
    | .outOfRange _ => regOutOfRange m s
  | .outOfRange _ => regOutOfRange m s

end Sys2Proof.Machine
end

