-- ==== Sys2Proof/Machine/Arithmetic.lean ====
section
/-! DEFINITION. ADD, SUB, CMP (spec/41_arithmetic_compare.md rules R90 to R94), the only writers of `zero_flag`. -/

namespace Sys2Proof.Machine

/-- `ADD r1, r2` (R90): the flag is set from the 16-bit result after wraparound. -/
def execAdd (r1 r2 : RegOperand) (s : State) : Result :=
  withRegs .add r1 r2 s fun i j t =>
    let sum := add16 (t.reg i) (t.reg j)
    .next ((t.setReg i sum).setZeroOf sum)

/-- `SUB r1, r2` (R91): the flag is set from the wrapped 16-bit result. -/
def execSub (r1 r2 : RegOperand) (s : State) : Result :=
  withRegs .sub r1 r2 s fun i j t =>
    let diff := sub16 (t.reg i) (t.reg j)
    .next ((t.setReg i diff).setZeroOf diff)

/-- `CMP r1, r2` (R92): the flag only. -/
def execCmp (r1 r2 : RegOperand) (s : State) : Result :=
  withRegs .cmp r1 r2 s fun i j t => .next (t.setZeroEq (t.reg i) (t.reg j))

end Sys2Proof.Machine
end

