-- ==== Sys2Proof/Machine/Disk.lean ====
section
/-! DEFINITION. The Disk Controller (spec/60_exceptions.md rules R150 to R158), the memory-mapped I/O dispatcher
(spec/20_memory.md rules R43 to R46) and the engine store through it (R34). -/

namespace Sys2Proof.Machine

/-! ### The device -/

/-- The newline byte of List (R152; the number is the spec's general-knowledge passage K2, log 20). -/
def newlineByte : Byte := 0x0A#8

/-- The key of R153: 15 bytes at the name pointer and a zero 16th byte. UNVERIFIED, unsafe: the spec's decision
D20 (log 18). -/
def State.nameKey (s : State) (namePtr : Word) : Vector Byte 16 :=
  Vector.ofFn fun j => if j.val < 15 then s.readByte (addrAdd namePtr (BitVec.ofNat 16 j.val)) else 0#8

/-- The bytes List writes (R152): each name and a newline, in storage order, then one zero byte. -/
def listBytes : List DirEntry → List Byte
  | [] => [0#8]
  | e :: es => e.name.toList ++ newlineByte :: listBytes es

/-- Command 1, List (R152). The bytes lie one after another from the data pointer, so entry `i` starts at
`data_ptr + 17*i`. -/
def State.diskList (s : State) (dataPtr : Word) : State := s.rawWrites dataPtr (listBytes s.store)

/-- Command 2, Read-by-name (R154): the first entry whose 16-byte name is the key; its payload is copied first, then the low
16 bits of its size are written to the size register, in the byte order of data (R31). No match writes nothing. -/
def State.diskRead (s : State) (namePtr dataPtr : Word) : State :=
  let key := s.nameKey namePtr
  match s.store.find? fun e => decide (e.name = key) with
  | none => s
  | some e =>
    let size := BitVec.ofNat 16 e.payload.length
    (s.rawWrites dataPtr e.payload).rawWrites Config.diskSizeAddr [firstByte size, secondByte size]

/-- The store with one entry appended (R155). Beyond what `entry_count` can count it is a free value (R158, log 15). -/
def appendEntry (store : List DirEntry) (e : DirEntry) : List DirEntry :=
  if store.length < Config.maxStoreEntries then store ++ [e] else Config.storeOverflow store e

/-- Command 3, Write-by-name (R155): no memory byte is written. -/
def State.diskWrite (s : State) (namePtr dataPtr size : Word) : State :=
  { s with
    store := appendEntry s.store
      { name := s.nameKey namePtr, payload := s.readBytes dataPtr size.toNat } }

/-- `DiskCommand(cmd, name_ptr, data_ptr, size)` of R150, with the draw of R151 as an argument: a command whose store
cannot be opened is dropped without a trace. A code other than 1, 2, 3 does nothing (the spec's decision D10, log 17). -/
def State.diskCommand (s : State) (fails : Bool) (cmd : Byte) (namePtr dataPtr size : Word) : State :=
  if fails then s
  else if cmd = 1#8 then s.diskList dataPtr
  else if cmd = 2#8 then s.diskRead namePtr dataPtr
  else if cmd = 3#8 then s.diskWrite namePtr dataPtr size
  else s

/-! ### The dispatcher -/

/-- The dispatcher fires (R44, R46): the arguments are read at this moment, and the whole command is done before the step
ends. Whether the store opens is the next draw (R151, log 13). -/
def State.dispatch (s : State) : State :=
  let drawn := { s with diskDraws := s.diskDraws + 1 }
  drawn.diskCommand (Config.storageFails s.diskDraws) (s.readByte Config.diskCmdAddr)
    (s.readWord Config.diskNamePtrAddr) (s.readWord Config.diskDataPtrAddr) (s.readWord Config.diskSizeAddr)

/-- Which engine stores the dispatcher takes for a write to the command register: those with any of their two bytes on it, or
only those whose address is its own, which D8 names as what the original may do. -/
inductive DispatchGranularity where
  | anyByte
  | storeAddress
  deriving DecidableEq, Repr

end Sys2Proof.Machine

namespace Sys2Proof

/-- The parameter `DISPATCH_GRANULARITY` of R4: any byte written to `0xE000` by an engine store (R44). UNVERIFIED, unsafe in
the rare cases: the spec's decision D8 (log 16). -/
def Config.dispatchGranularity : Machine.DispatchGranularity := .anyByte

end Sys2Proof

namespace Sys2Proof.Machine

/-- The dispatcher takes an engine store at `a` for a write to `0xE000` (R44). -/
def hitsCommand (a : Word) : Bool :=
  match Config.dispatchGranularity with
  | .anyByte => decide (a = Config.diskCmdAddr) || decide (addrAdd a 1 = Config.diskCmdAddr)
  | .storeAddress => decide (a = Config.diskCmdAddr)

/-- `MemWrite(a, 2, v)`, the engine's only store (R34): both bytes, then the dispatch check of R44. -/
def State.memWrite (s : State) (a v : Word) : State :=
  let stored := s.storeBytes a v
  if hitsCommand a then stored.dispatch else stored

/-! ### The stack primitives -/

/-- `Push16(v)` (R110): the value is written at the current `sp` first, then `sp` drops by 2. -/
def State.push16 (s : State) (v : Word) : State :=
  let stored := s.memWrite s.sp v
  { stored with sp := addrSub stored.sp 2 }

/-- `Pop16()` (R111): `sp` rises by 2 first, then the value is read at the new `sp`. -/
def State.pop16 (s : State) : Word × State :=
  let moved := { s with sp := addrAdd s.sp 2 }
  (moved.readWord moved.sp, moved)

end Sys2Proof.Machine
end

