-- ==== Sys2Proof/Machine/Control.lean ====
section
/-! DEFINITION. JMP, JZ, CALL, RET, HALT (spec/42_control_flow.md rules R100 to R105). Targets are absolute (R65). -/

namespace Sys2Proof.Machine

/-- `JMP addr16` (R100). -/
def execJmp (addr : Word) (s : State) : Result := .next { s.advance .jmp with pc := addr }

/-- `JZ addr16` (R101): not taken, `pc` stays `pc_next`. -/
def execJz (addr : Word) (s : State) : Result :=
  .next (if s.zeroFlag then { s.advance .jz with pc := addr } else s.advance .jz)

/-- `CALL addr16` (R102): the return address pushed is `pc_next`; the push is an engine store. -/
def execCall (addr : Word) (s : State) : Result :=
  let t := s.advance .call
  .next { t.push16 t.pc with pc := addr }

/-- `RET` (R103). -/
def execRet (s : State) : Result :=
  let popped := (s.advance .ret).pop16
  .next { popped.2 with pc := popped.1 }

/-- `HALT` (R104): `pc` stays `pc_next`. UNVERIFIED, unsafe for claims about `pc` after it: the spec's decision D13
(log 21). -/
def execHalt (s : State) : Result := .next (s.advance .halt).stopHalted

end Sys2Proof.Machine
end

