-- ==== Sys2Proof/Machine/DataTransfer.lean ====
section
/-! DEFINITION. LOAD, LOADM, STORE, LOADR, STORER (spec/40_data_transfer.md rules R80 to R85). Each reads its registers
before it writes anything (R85) and touches neither the flag nor `sp`. -/

namespace Sys2Proof.Machine

/-- `LOAD reg, imm16` (R80). -/
def execLoad (reg : RegOperand) (imm : Word) (s : State) : Result :=
  withReg .load reg s fun r t => .next (t.setReg r imm)

/-- `LOADM reg, addr16` (R81). -/
def execLoadm (reg : RegOperand) (addr : Word) (s : State) : Result :=
  withReg .loadm reg s fun r t => .next (t.setReg r (t.readWord addr))

/-- `STORE reg, addr16` (R82): an engine store. -/
def execStore (reg : RegOperand) (addr : Word) (s : State) : Result :=
  withReg .store reg s fun r t => .next (t.memWrite addr (t.reg r))

/-- `LOADR rdest, raddr` (R83). -/
def execLoadr (rdest raddr : RegOperand) (s : State) : Result :=
  withRegs .loadr rdest raddr s fun d a t => .next (t.setReg d (t.readWord (t.reg a)))

/-- `STORER rval, raddr` (R84): an engine store of `rval` at the address in `raddr` (C2). -/
def execStorer (rval raddr : RegOperand) (s : State) : Result :=
  withRegs .storer rval raddr s fun v a t => .next (t.memWrite (t.reg a) (t.reg v))

end Sys2Proof.Machine
end

