-- ==== Sys2Proof/Machine/Console.lean ====
section
/-! DEFINITION. The Console Text Model (spec/60_exceptions.md rules R160 to R166), used by `OUT` in interactive mode. -/

namespace Sys2Proof

/-- The parameter `CONSOLE_CLEAR_BYTE` of R4: what the scrolled-in row holds (R165). UNVERIFIED, unsafe: the spec's
decision D18 (log 20). -/
def Config.consoleClearByte : Byte := 0x00#8

end Sys2Proof

namespace Sys2Proof.Machine

/-- The address of display cell (row `y`, column `x`): `0xF000 + 80*y + x` (R41). -/
def cellAddr (y x : Nat) : Word := BitVec.ofNat 16 (Config.displayBase + Config.displayCols * y + x)

/-- `\n` (R161): column 0, next row. -/
def State.consoleNewline (s : State) : State := { s with curX := 0, curY := s.curY + 1 }

/-- `\r` (R162): column 0. -/
def State.consoleReturn (s : State) : State := { s with curX := 0 }

/-- Backspace (R164): one cell left, to the end of the previous row from column 0, nothing at (0, 0). No cell is written. -/
def State.consoleBackspace (s : State) : State :=
  if 0 < s.curX then { s with curX := s.curX - 1 }
  else if 0 < s.curY then { s with curX := Config.displayCols - 1, curY := s.curY - 1 }
  else s

/-- Any other byte (R163): written as it is into the cursor's cell, then the cursor moves on, past the last column to the next
row. -/
def State.consoleWrite (s : State) (c : Byte) : State :=
  let written := s.rawWrite (cellAddr s.curY s.curX) c
  if s.curX + 1 = Config.displayCols then { written with curX := 0, curY := s.curY + 1 }
  else { written with curX := s.curX + 1 }

/-- What the display holds after a scroll (R165), cell by cell: rows 1 to 29 as they were, then the cleared bottom row.
Irreducible, so that no proof evaluates its 2400 cells by chance. -/
@[irreducible] def State.scrolledDisplay (s : State) : List Byte :=
  s.readBytes (cellAddr 1 0) (Config.displayCols * (Config.displayRows - 1)) ++
    List.replicate Config.displayCols Config.consoleClearByte

/-- Scroll (R165), if the row has gone past the last one: rows 1 to 29 become rows 0 to 28, the new bottom row is cleared, the
cursor's row is 29. Every cell is read before the copy reaches it (ascending addresses, source above destination), so the
copy is one run of writes of the cells as they were (DEDUCED, safe, log 26). -/
def State.consoleScroll (s : State) : State :=
  if s.curY = Config.displayRows then
    { s.rawWrites (cellAddr 0 0) s.scrolledDisplay with curY := Config.displayRows - 1 }
  else s

/-- `put_char(c)` (R160): exactly one of R161 to R164, then R165. -/
def State.putChar (s : State) (c : Byte) : State :=
  (if c = 0x0A#8 then s.consoleNewline
   else if c = 0x0D#8 then s.consoleReturn
   else if c = 0x08#8 then s.consoleBackspace
   else s.consoleWrite c).consoleScroll

end Sys2Proof.Machine
end

