-- ==== Sys2Proof/Machine/Queue.lean ====
section
/-! DEFINITION. The Input Queue's operations (spec/60_exceptions.md rules R170 to R172). -/

namespace Sys2Proof.Machine

/-- How many codes are pending: the distance from head to tail, modulo 64 (R18). -/
def InputQueue.pending (q : InputQueue) : Nat := (q.tail - q.head).val

/-- `dequeue()` (R171): none when `head = tail`, else the oldest code, and the head moves on modulo 64. -/
def InputQueue.dequeue? (q : InputQueue) : Option (Byte × InputQueue) :=
  if q.head = q.tail then none else some (q.buf[q.head], { q with head := q.head + 1 })

/-- `enqueue(code)` (R170) while fewer than 63 codes are pending; beyond that a free value (R172, `INQ_OVERFLOW`, log 14). -/
def InputQueue.enqueue (q : InputQueue) (code : Byte) : InputQueue :=
  if q.pending < Config.inqMaxPending then { q with buf := q.buf.set q.tail code, tail := q.tail + 1 }
  else Config.inqOverflow q code

end Sys2Proof.Machine
end

