-- ==== Sys2Proof/Machine/InputOutput.lean ====
section
/-! DEFINITION. PRINT, IN, OUT (spec/44_io.md rules R120 to R123). -/

namespace Sys2Proof.Machine

/-- `PRINT reg` (R121): the 16-bit value on port `DIAG`, in both modes. -/
def execPrint (reg : RegOperand) (s : State) : Result :=
  withReg .print reg s fun r t => .next { t with diag := t.diag ++ [t.reg r] }

/-- Interactive `IN` (R122): dequeue, or answer `Blocked` with `pc` back at `pc0` and nothing else changed from the state `s`
the step began in. -/
def inInteractive (s : State) (r : Fin 8) (t : State) : Result :=
  match t.inq.dequeue? with
  | none => .next { s with outcome := some .blocked }
  | some (code, q) => .next ({ t with inq := q }.setReg r (zext16 code))

/-- Headless `IN` (R122): one byte from port `HIN`; at end-of-input the machine halts with the register unchanged. Until the
environment answers, the step does not return (U20, log 12). -/
def inHeadless (r : Fin 8) (t : State) : Result :=
  match t.hin with
  | b :: rest => .next ({ t with hin := rest }.setReg r (zext16 b))
  | [] => if t.hinEnded then .next t.stopHalted else .fault .hinNoAnswer

/-- `IN reg` (R122). -/
def execIn (reg : RegOperand) (s : State) : Result :=
  withReg .inp reg s fun r t => if t.interactive then inInteractive s r t else inHeadless r t

/-- `OUT reg` (R123): the low byte to the Console Text Model, or on port `HOUT`. -/
def execOut (reg : RegOperand) (s : State) : Result :=
  withReg .out reg s fun r t =>
    let c := lowByte (t.reg r)
    .next (if t.interactive then t.putChar c else { t with hout := t.hout ++ [c] })

end Sys2Proof.Machine
end

