-- ==== Sys2Proof/Machine/Stack.lean ====
section
/-! DEFINITION. PUSH, POP (spec/43_stack.md rules R110 to R113). -/

namespace Sys2Proof.Machine

/-- `PUSH reg` (R112): `Push16(x[reg])`, an engine store. -/
def execPush (reg : RegOperand) (s : State) : Result :=
  withReg .push reg s fun r t => .next (t.push16 (t.reg r))

/-- `POP reg` (R113): `x[reg] <- Pop16()`. -/
def execPop (reg : RegOperand) (s : State) : Result :=
  withReg .pop reg s fun r t => .next (t.pop16.2.setReg r t.pop16.1)

end Sys2Proof.Machine
end

