-- ==== Sys2Proof/Machine/Dispatch.lean ====
section
/-! DEFINITION. One arm per instruction (spec/30_encoding.md rule R60). `exec i s` is the whole step of a running machine whose
`pc` (still `pc0` in `s`) points at `i` (spec/00_scope.md rule R9). -/

namespace Sys2Proof.Machine

def exec (i : Instr) (s : State) : Host.Outcome State Fault Refusal :=
  match i with
  | .load reg imm => Sys2Proof.Machine.execLoad reg imm s
  | .add r1 r2 => Sys2Proof.Machine.execAdd r1 r2 s
  | .sub r1 r2 => Sys2Proof.Machine.execSub r1 r2 s
  | .loadm reg addr => Sys2Proof.Machine.execLoadm reg addr s
  | .store reg addr => Sys2Proof.Machine.execStore reg addr s
  | .jmp addr => Sys2Proof.Machine.execJmp addr s
  | .jz addr => Sys2Proof.Machine.execJz addr s
  | .print reg => Sys2Proof.Machine.execPrint reg s
  | .cmp r1 r2 => Sys2Proof.Machine.execCmp r1 r2 s
  | .push reg => Sys2Proof.Machine.execPush reg s
  | .pop reg => Sys2Proof.Machine.execPop reg s
  | .call addr => Sys2Proof.Machine.execCall addr s
  | .ret => Sys2Proof.Machine.execRet s
  | .inp reg => Sys2Proof.Machine.execIn reg s
  | .out reg => Sys2Proof.Machine.execOut reg s
  | .loadr rdest raddr => Sys2Proof.Machine.execLoadr rdest raddr s
  | .storer rval raddr => Sys2Proof.Machine.execStorer rval raddr s
  | .halt => Sys2Proof.Machine.execHalt s

end Sys2Proof.Machine
end

