-- ==== Sys2Proof/Machine/Fetch.lean ====
section
/-! DEFINITION. Fetching the instruction at `pc` (spec/00_scope.md rule R9, spec/20_memory.md rule R30), and placing one
there for the host's interface. -/

namespace Sys2Proof.Machine

/-- The instruction at `pc`, or the byte that is no opcode. The opcode byte is read first and an illegal one ends the fetch
(R68); the operand bytes of its format follow at the next address upward (R61, R72). -/
def State.fetch (s : State) : Except Byte Instr :=
  let op := s.readByte s.pc
  match mnemonicOf? op with
  | none => .error op
  | some m => .ok (m.build (s.readBytes (addrAdd s.pc 1) (m.length - 1)))

/-- The bytes of an instruction placed where the next step fetches it, in a machine that runs. -/
def State.placeAtPc (s : State) (bytes : List Byte) : State := { s.rawWrites s.pc bytes with running := true }

end Sys2Proof.Machine
end

