-- ==== Sys2Proof/Machine/Step.lean ====
section
/-! DEFINITION. One step (spec/00_scope.md rule R9), and the host's way to place one instruction. -/

namespace Sys2Proof.Machine

/-- The instruction cycle of R9: a stopped machine answers `Halted` and changes nothing (R131); a byte that is no opcode is a
`DecodeError` (R133); otherwise the instruction at `pc` runs. The order of the checks is R136's. -/
def step (s : State) : Host.Outcome State Fault Refusal :=
  if s.running then
    match s.fetch with
    | .ok i => exec i s
    | .error op => .next (s.raiseDecodeError op s.pc)
  else .next { s with outcome := some .halted }

/-- `s` with the instruction of a table word (numbered as spec/opcode_table.json numbers it, log 23) at `pc`, and running, so
that the next step runs it. It stands for the image load from outside (R184, log 22). -/
def State.withFetchWord (s : State) (nbits w : Nat) : State := s.placeAtPc (tableBytes nbits w)

end Sys2Proof.Machine
end

