-- ==== Sys2Proof/Machine/HostOps.lean ====
section
/-! DEFINITION. The host's operations (spec/60_exceptions.md rule R175, spec/00_scope.md rule R7): what the world outside may
do between steps. `initialize` is `State.initialize`, `is_running()` the field `running`, `HOUT`, `DIAG` and `OUTCOME` the
fields of those names. None of them is a step. Where the table of R175 does not admit a call that a state can show, the
operation is refused; what no state shows is the host's duty (log 24). -/

namespace Sys2Proof.Machine

/-- The host may load an image: none is loaded yet and no step has been taken (R175, R184, the spec's decision D24). A step
that answers leaves its outcome, so the outcome tells (log 10). -/
def State.admitsLoad (s : State) : Bool := !s.loaded && s.outcome.isNone

/-- `load(bytes)` (R184), once and before the first step (D24, U17): the image verbatim from address 0, by raw writes; an
image of more than 65536 bytes is a `LoadError` and nothing changes. -/
def State.load (s : State) (image : List Byte) : Result :=
  if s.admitsLoad then
    if Config.memSize < image.length then .fault (.loadError image.length)
    else .next { s.rawWrites 0 image with loaded := true }
  else .refused .loadNotAdmitted

/-- `enqueue(code)` (R170), interactive mode only (R175). -/
def State.enqueue (s : State) (code : Byte) : Result :=
  if s.interactive then .next { s with inq := s.inq.enqueue code } else .refused .enqueueHeadless

/-- The environment supplies one byte on `HIN` (R21), headless mode only (R175). -/
def State.supplyHin (s : State) (b : Byte) : Result :=
  if s.interactive then .refused .inputInteractive
  else if s.hinEnded then .refused .inputAfterEnd
  else .next { s with hin := s.hin ++ [b] }

/-- The environment signals end-of-input on `HIN` (R21, R122), headless mode only (R175). -/
def State.endHin (s : State) : Result :=
  if s.interactive then .refused .inputInteractive else .next { s with hinEnded := true }

/-- `DISPLAY_RD` (R7, R41, R47): the display cell at row `y`, column `x`. -/
def State.displayCell (s : State) (y x : Nat) : Byte := s.readByte (cellAddr y x)

/-- `CURSOR_RD` (R7): the cursor cell, column and row. -/
def State.cursorCell (s : State) : Nat × Nat := (s.curX, s.curY)

end Sys2Proof.Machine
end

