-- ==== Sys2Proof/Safety.lean ====
section
/-! DEFINITION. What a claim may assume of a state, what counts as a safe run, and the words the claims use for what an
instruction leaves unchanged. -/

namespace Sys2Proof.Machine

/-- What every state of a run satisfies: memory is in canonical form and the console cursor is a cell of the 80 × 30 grid
(spec/10_state.md rules R17, R19). -/
structure State.Inv (s : State) : Prop where
  mem_wf : s.mem.wf = true
  curX_lt : s.curX < Config.displayCols
  curY_lt : s.curY < Config.displayRows

/-- The last outcome agrees with `running` as the table of spec/60_exceptions.md rule R130 says. -/
def State.OutcomeAgrees (s : State) : Prop :=
  ∃ o, s.outcome = some o ∧ (s.running = true ↔ o = .continued ∨ o = .blocked)

/-- The machine has stopped on an illegal opcode (R133). -/
def State.DecodeFailed (s : State) : Prop :=
  s.running = false ∧ ∃ op addr, s.outcome = some (.decodeError op addr)

/-- The next step is a headless `IN` with a valid register at end-of-input (R122). -/
def State.InputEnds (s : State) : Prop :=
  s.running = true ∧ s.interactive = false ∧ s.hin = [] ∧ s.hinEnded = true ∧ ∃ r, s.fetch = .ok (.inp (.gpr r))

/-- The next step is an interactive `IN` with a valid register and nothing pending (R122). -/
def State.InputBlocks (s : State) : Prop :=
  s.running = true ∧ s.interactive = true ∧ s.inq.head = s.inq.tail ∧ ∃ r, s.fetch = .ok (.inp (.gpr r))

/-- A safe run of `k` steps: it completes and no decode error ends it. -/
def SafeRun (k : Nat) (s : State) : Prop :=
  ∃ t, Sys2Proof.core.run k s = .next t ∧ ¬ t.DecodeFailed

/-- Everything the host may do to the machine once it is initialized (spec/60_exceptions.md rule R175), each operation where
it is admitted: a step, a load, an input code, a byte on `HIN`, end-of-input. Reading the display, the cursor or a sink changes
nothing. -/
def HostStep (s t : State) : Prop :=
  step s = .next t ∨ (∃ image, s.load image = .next t) ∨ (∃ code, s.enqueue code = .next t) ∨
    (∃ b, s.supplyHin b = .next t) ∨ s.endHin = .next t

/-! ### Frames -/

/-- Every general register but those listed holds its old value. -/
def RegsSameBut (rs : List (Fin 8)) (s t : State) : Prop := ∀ r, r ∉ rs → t.reg r = s.reg r

/-- Every byte of memory reads as before. -/
def MemSame (s t : State) : Prop := ∀ a, t.readByte a = s.readByte a

/-- Every byte of memory but those at the `n` addresses from `a` upward, modulo 65536, reads as before. -/
def MemSameBut (a : Word) (n : Nat) (s t : State) : Prop :=
  ∀ b, (∀ j < n, b ≠ add16 a (BitVec.ofNat 16 j)) → t.readByte b = s.readByte b

/-- The two control bits, and the model's own record of the host's load, are unchanged. -/
def ControlSame (s t : State) : Prop := t.running = s.running ∧ t.interactive = s.interactive ∧ t.loaded = s.loaded

/-- The disk store and the count of its draws are unchanged. -/
def DiskSame (s t : State) : Prop := t.store = s.store ∧ t.diskDraws = s.diskDraws

/-- The Input Queue is unchanged. -/
def QueueSame (s t : State) : Prop := t.inq = s.inq

/-- The console cursor is unchanged. -/
def CursorSame (s t : State) : Prop := t.curX = s.curX ∧ t.curY = s.curY

/-- The headless input stream is unchanged. -/
def HinSame (s t : State) : Prop := t.hin = s.hin ∧ t.hinEnded = s.hinEnded

/-- Nothing was written on `HOUT`. -/
def HoutSame (s t : State) : Prop := t.hout = s.hout

/-- Nothing was emitted on `DIAG`. -/
def DiagSame (s t : State) : Prop := t.diag = s.diag

/-- No attached device and no stream changed. -/
def DevicesSame (s t : State) : Prop :=
  DiskSame s t ∧ QueueSame s t ∧ CursorSame s t ∧ HinSame s t ∧ HoutSame s t ∧ DiagSame s t

/-- The devices and streams but the disk are unchanged. -/
def OtherDevicesSame (s t : State) : Prop :=
  QueueSame s t ∧ CursorSame s t ∧ HinSame s t ∧ HoutSame s t ∧ DiagSame s t

/-! ### The Input Queue as a list -/

/-- The pending codes, oldest first: `head` upward to `tail`, modulo 64 (spec/60_exceptions.md rules R171, R172). -/
def InputQueue.contents (q : InputQueue) : List Byte :=
  (List.range q.pending).map fun j => q.buf[(q.head.val + j) % 64]'(Nat.mod_lt _ (by decide))

/-! ### Stores -/

/-- The address and the value of the one engine store an instruction makes in state `s`, whose `pc` is the instruction's
own address (spec/20_memory.md rule R37). None for an instruction, or a form (R69), that makes none. -/
def engineStore? (i : Instr) (s : State) : Option (Word × Word) :=
  match i with
  | .store (.gpr r) addr => some (addr, s.reg r)
  | .storer (.gpr v) (.gpr a) => some (s.reg a, s.reg v)
  | .push (.gpr r) => some (s.sp, s.reg r)
  | .call _ => some (s.sp, add16 s.pc 3)
  | _ => none

end Sys2Proof.Machine
end

