-- ==== Sys2Proof/Certificates/Slice0/Obligations.lean ====
section
/-! DEFINITION. The statements for the provers, one `def Obligations.<Name> : Prop` each. In every statement about an
instruction, `s` is the machine between steps, its `pc` the instruction's own address (`pc0` of spec/00_scope.md rule R9). That
an opcode byte has its value and a register operand one byte is the spec's own decision, D1 and D2 (log 1, 2, UNVERIFIED);
16-bit values lie in memory low byte first by D4, and sums of addresses wrap by D5 (log 4, 5, UNVERIFIED). -/

open Sys2Proof Sys2Proof.Machine

/-! ### Encoding -/

/-- Decoding the encoding of a well-formed instruction, whatever bytes follow, gives the instruction back and the bytes after
it: no bit of an operand is dropped (spec/30_encoding.md R61, R62, R64, R65, R69). -/
def Obligations.DecodeOfEncodeIsTheInstruction : Prop :=
  ∀ (i : Instr) (rest : List Byte), i.wellFormed = true → decode (encode i ++ rest) = .ok (i, rest)

/-- What the decoder accepts is well formed and encodes to the very bytes read, so a word has one meaning and a rejected
word none (R61 to R69). -/
def Obligations.DecodedInstructionEncodesToItsBytes : Prop :=
  ∀ (bs rest : List Byte) (i : Instr),
    decode bs = .ok (i, rest) → i.wellFormed = true ∧ bs = encode i ++ rest

/-- R67: the opcode bytes are `0x01` to `0x12` in table order (the spec's decision D1), so 18 distinct values, never `0x00`;
every other byte is no opcode (R68). -/
def Obligations.OpcodesFollowTableOrder : Prop :=
  (∀ (k : Nat) (h : k < Mnemonic.all.length), (Config.opc Mnemonic.all[k]).toNat = k + 1) ∧
    (∀ m : Mnemonic, m ∈ Mnemonic.all) ∧ Mnemonic.all.length = 18 ∧
    ∀ b : Byte, mnemonicOf? b = none ↔ b.toNat = 0 ∨ 0x13 ≤ b.toNat

/-- Words written out from R62 and R67 decode to the instructions they stand for, one of each family. -/
def Obligations.WordsOfTheSpecDecode : Prop :=
  decode [0x01, 0x00, 0x05, 0x00] = .ok (.load (.gpr 0) 5, []) ∧
    decode [0x05, 0x01, 0x00, 0xE0] = .ok (.store (.gpr 1) 0xE000, []) ∧
    decode [0x03, 0x00, 0x01] = .ok (.sub (.gpr 0) (.gpr 1), []) ∧
    decode [0x07, 0x10, 0x00] = .ok (.jz 0x0010, []) ∧
    decode [0x0A, 0x03] = .ok (.push (.gpr 3), []) ∧
    decode [0x0F, 0x01] = .ok (.out (.gpr 1), []) ∧
    decode [0x09, 0x00, 0xFF] = .ok (.cmp (.gpr 0) (.outOfRange 0xFF), []) ∧
    decode [0x00] = .error (.illegalOpcode 0x00)

/-! ### Reset and load -/

/-- R180: every item of `initialize(interactive)`, for either mode and any disk store, which reset does not touch. `sp`, the
flag, `running`, the queue indices and the cursor are the spec's decisions D6 and D7 (log 6). -/
def Obligations.InitializeGivesResetValues : Prop :=
  ∀ (mode : Bool) (disk : List DirEntry),
    let s := State.initialize mode disk
    (∀ r, s.reg r = 0x0000#16) ∧ s.pc = 0x0000#16 ∧ s.sp = 0xFFFE#16 ∧ s.zeroFlag = false ∧
      (∀ a, s.readByte a = 0x00#8) ∧ s.running = true ∧ s.interactive = mode ∧
      s.inq.head = 0 ∧ s.inq.tail = 0 ∧ s.curX = 0 ∧ s.curY = 0 ∧ s.store = disk

/-- R184: before any load and any step, an image of at most 65536 bytes lands verbatim from address 0, the other bytes and
everything but memory stay, and no disk command runs; a larger image is a load error. That a second load, or one after a step,
is refused is the spec's decision D24 (U17); the record `loaded` is the model's own (log 24, 31). -/
def Obligations.LoadPlacesTheImageOrRejectsIt : Prop :=
  ∀ (s : State) (image : List Byte), s.mem.wf = true →
    (s.loaded = true ∨ s.outcome ≠ none → s.load image = .refused .loadNotAdmitted) ∧
    (s.loaded = false → s.outcome = none → image.length ≤ 65536 →
      ∃ t, s.load image = .next t ∧
        (∀ (k : Nat) (h : k < image.length), t.readByte (BitVec.ofNat 16 k) = image[k]) ∧
        (∀ a : Word, image.length ≤ a.toNat → t.readByte a = s.readByte a) ∧
        t = { s with mem := t.mem, loaded := true }) ∧
    (s.loaded = false → s.outcome = none → 65536 < image.length → s.load image = .fault (.loadError image.length))

/-- The host loads once, before the first step (R175, R184, the spec's decision D24, log 24): `initialize` admits a load, and
after a load or a step, whatever the host does next, every further load is refused. -/
def Obligations.LoadIsAdmittedOnceBeforeTheFirstStep : Prop :=
  (∀ mode disk image, image.length ≤ 65536 → ∃ t, (State.initialize mode disk).load image = .next t) ∧
    ∀ (s t u : State) (image : List Byte), (step s = .next t ∨ ∃ first, s.load first = .next t) →
      Relation.ReflTransGen HostStep t u → u.load image = .refused .loadNotAdmitted

/-! ### The step -/

/-- Where the bytes at `pc` decode to an instruction, a step of a running machine is `exec` of it, with nothing added
around (spec/00_scope.md section 6, the instruction cycle R9). -/
def Obligations.StepRunsTheDecodedInstruction : Prop :=
  ∀ (s : State) (i : Instr) (rest : List Byte), s.running = true →
    decode (s.readBytes s.pc 4) = .ok (i, rest) → step s = exec i s

/-- R133 and R68: a byte that is no opcode stops the machine with `DecodeError`; `pc` stays at the byte (the spec's decision
D12, log 21) and nothing else changes. -/
def Obligations.IllegalOpcodeStopsWithDecodeError : Prop :=
  ∀ s : State, s.running = true →
    ((s.readByte s.pc).toNat = 0 ∨ 0x13 ≤ (s.readByte s.pc).toNat) →
      step s = .next { s with
        running := false
        outcome := some (.decodeError (s.readByte s.pc) s.pc) }

/-- R131 and R186: a step with `running = 0` changes no state and returns `Halted`, and so does every further one (the spec's
decision D11, log 21). -/
def Obligations.StoppedMachineNeverMovesAgain : Prop :=
  ∀ (k : Nat) (s : State), s.running = false →
    Sys2Proof.core.run (k + 1) s = .next { s with outcome := some .halted }

/-- A step always has a next state, but for a headless `IN` with a valid register that the environment has not answered
(R122 c; the named stuck state is log 12). -/
def Obligations.StepCompletesUnlessInputIsAwaited : Prop :=
  ∀ s : State, (∃ t, step s = .next t) ∨
    (step s = .fault .hinNoAnswer ∧ s.running = true ∧ s.interactive = false ∧ s.hin = [] ∧ s.hinEnded = false ∧
      ∃ r, s.fetch = .ok (.inp (.gpr r)))

/-- R130: a step returns one of four outcomes, each exactly when the table says, with `running` and `pc` as it says; that a
stopped machine answers `Halted`, and `pc` after a stop, are the spec's decisions D11, D12, D13, D14 (log 21). -/
def Obligations.StepOutcomeFollowsTheTable : Prop :=
  ∀ s t : State, step s = .next t →
    t.OutcomeAgrees ∧
    (t.outcome = some .halted ↔
      s.running = false ∨ (s.running = true ∧ s.fetch = .ok .halt) ∨ s.InputEnds) ∧
    (s.running = false → t.pc = s.pc) ∧
    (s.running = true → s.fetch = .ok .halt → t.pc = s.pc + 1) ∧
    (s.InputEnds → t.pc = s.pc + 2) ∧
    (t.outcome = some .blocked ↔ s.InputBlocks) ∧
    (s.InputBlocks → t.pc = s.pc) ∧
    (∀ op addr, t.outcome = some (.decodeError op addr) ↔
      s.running = true ∧ addr = s.pc ∧ op = s.readByte s.pc ∧ mnemonicOf? op = none) ∧
    (s.running = true → mnemonicOf? (s.readByte s.pc) = none → t.pc = s.pc)

/-! ### Invariants and whole-machine rules -/

/-- The machine right after reset meets the invariant. -/
def Obligations.ResetMeetsTheInvariant : Prop := State.reset.Inv

/-- Every step from a state that meets the invariant leads to one that does: memory stays in canonical form (R17) and the
console cursor stays in the 80 × 30 grid (R19). -/
def Obligations.StepKeepsTheInvariant : Prop := ∀ s t : State, s.Inv → step s = .next t → t.Inv

/-- R14: reset sets `running` (the spec's decision D7, log 6), exactly three events clear it, and nothing sets it again. -/
def Obligations.RunningIsClearedByThreeEventsOnly : Prop :=
  (∀ mode disk, (State.initialize mode disk).running = true) ∧
    ∀ s t : State, step s = .next t →
      (s.running = false → t.running = false) ∧
        (s.running = true →
          (t.running = false ↔ s.fetch = .ok .halt ∨ (∃ op, s.fetch = .error op) ∨ s.InputEnds))

/-- No step changes the mode (spec/10_state.md section 5, R15). -/
def Obligations.NoStepChangesTheMode : Prop :=
  ∀ s t : State, step s = .next t → t.interactive = s.interactive

/-- Every instruction but `IN` and `OUT` does the same in both modes (spec/10_state.md section 5, R15). -/
def Obligations.OnlyInAndOutSeeTheMode : Prop :=
  ∀ (i : Instr) (s t : State) (mode : Bool), i.mnemonic ≠ .inp → i.mnemonic ≠ .out → exec i s = .next t →
    exec i { s with interactive := mode } = .next { t with interactive := mode }

/-- Only `ADD`, `SUB` and `CMP` with valid registers write the flag (spec/10_state.md section 4, R13). -/
def Obligations.OnlyArithmeticWritesTheFlag : Prop :=
  ∀ s t : State, step s = .next t → t.zeroFlag ≠ s.zeroFlag →
    ∃ a b, s.fetch = .ok (.add (.gpr a) (.gpr b)) ∨ s.fetch = .ok (.sub (.gpr a) (.gpr b)) ∨
      s.fetch = .ok (.cmp (.gpr a) (.gpr b))

/-- Only `PUSH`, `CALL` and `POP`, `RET` move `sp`, by 2 down and by 2 up (spec/10_state.md section 3, R12). -/
def Obligations.OnlyStackInstructionsMoveSp : Prop :=
  ∀ s t : State, step s = .next t → t.sp ≠ s.sp →
    (t.sp = s.sp - 2 ∧ ((∃ r, s.fetch = .ok (.push (.gpr r))) ∨ ∃ a, s.fetch = .ok (.call a))) ∨
      (t.sp = s.sp + 2 ∧ ((∃ r, s.fetch = .ok (.pop (.gpr r))) ∨ s.fetch = .ok .ret))

/-- Only an engine store and an interactive `OUT` change a byte of memory (spec/20_memory.md section 3, R37). -/
def Obligations.OnlyStoresAndConsoleWriteMemory : Prop :=
  ∀ s t : State, step s = .next t → t.mem ≠ s.mem →
    ∃ i, s.fetch = .ok i ∧ ((engineStore? i s).isSome = true ∨ (s.interactive = true ∧ i.mnemonic = .out))

/-- Entries of the disk store are never rewritten or deleted, and only an engine store that hits the command register can add
one (spec/10_state.md section 7, R20; below the 65535 entries that R158 bounds, log 15). -/
def Obligations.DiskStoreOnlyGrows : Prop :=
  ∀ s t : State, s.store.length < 65535 → step s = .next t →
    s.store <+: t.store ∧ t.store.length ≤ s.store.length + 1 ∧
      (t.store = s.store ∨
        ∃ i a v, s.fetch = .ok i ∧ engineStore? i s = some (a, v) ∧ (a = 0xE000#16 ∨ a = 0xDFFF#16))

/-- R69: one register operand byte of 8 or more makes the whole instruction do nothing but advance `pc`, in every format
(the spec's decision D3, log 3). -/
def Obligations.OutOfRangeOperandMakesANoop : Prop :=
  ∀ (i : Instr) (s : State), (∃ b, .outOfRange b ∈ i.regOperands) →
    exec i s = .next { s with pc := s.pc + BitVec.ofNat 16 i.length, outcome := some .continued }

/-! ### Data transfer -/

/-- R80: `LOAD`. -/
def Obligations.LoadWritesItsImmediate : Prop :=
  ∀ (s : State) (r : Fin 8) (imm : Word),
    encode (.load (.gpr r) imm) = [0x01#8, BitVec.ofNat 8 r.val, imm.extractLsb' 0 8, imm.extractLsb' 8 8] ∧
    ∃ t, exec (.load (.gpr r) imm) s = .next t ∧ t.reg r = imm ∧ t.pc = s.pc + 4 ∧ t.outcome = some .continued ∧
      RegsSameBut [r] s t ∧ t.sp = s.sp ∧ t.zeroFlag = s.zeroFlag ∧ ControlSame s t ∧ MemSame s t ∧ DevicesSame s t

/-- R81: `LOADM`, at any address; the byte order of data is the spec's decision D4 (log 4). -/
def Obligations.LoadmReadsALittleEndianWord : Prop :=
  ∀ (s : State) (r : Fin 8) (a : Word),
    encode (.loadm (.gpr r) a) = [0x04#8, BitVec.ofNat 8 r.val, a.extractLsb' 0 8, a.extractLsb' 8 8] ∧
    ∃ t, exec (.loadm (.gpr r) a) s = .next t ∧
      (t.reg r).toNat = (s.readByte a).toNat + 256 * (s.readByte (a + 1)).toNat ∧
      t.pc = s.pc + 4 ∧ t.outcome = some .continued ∧
      RegsSameBut [r] s t ∧ t.sp = s.sp ∧ t.zeroFlag = s.zeroFlag ∧ ControlSame s t ∧ MemSame s t ∧ DevicesSame s t

/-- R83: `LOADR`; the address register is read before the destination is written, so they may be the same (the spec's decision
D17, log 28). -/
def Obligations.LoadrReadsAtTheAddressRegister : Prop :=
  ∀ (s : State) (d a : Fin 8),
    encode (.loadr (.gpr d) (.gpr a)) = [0x10#8, BitVec.ofNat 8 d.val, BitVec.ofNat 8 a.val] ∧
    ∃ t, exec (.loadr (.gpr d) (.gpr a)) s = .next t ∧
      (t.reg d).toNat = (s.readByte (s.reg a)).toNat + 256 * (s.readByte (s.reg a + 1)).toNat ∧
      t.pc = s.pc + 3 ∧ t.outcome = some .continued ∧
      RegsSameBut [d] s t ∧ t.sp = s.sp ∧ t.zeroFlag = s.zeroFlag ∧ ControlSame s t ∧ MemSame s t ∧ DevicesSame s t

/-- `STORE`, `STORER`, `PUSH` and `CALL` that miss the command register: the two bytes at the address stored to take the
value, low byte first, every other byte and everything else stays (spec/20_memory.md R34, R37; R82, R84, R102, R110, R112). `sp`
drops by 2 for `PUSH` and `CALL`, and `pc` is the next instruction's address, for `CALL` the target. -/
def Obligations.EngineStoreWritesItsTwoBytes : Prop :=
  ∀ (s : State) (i : Instr) (a v : Word), s.mem.wf = true → engineStore? i s = some (a, v) →
    a ≠ 0xE000#16 → a ≠ 0xDFFF#16 →
    ∃ t, exec i s = .next t ∧
      t.readByte a = v.extractLsb' 0 8 ∧ t.readByte (a + 1) = v.extractLsb' 8 8 ∧ MemSameBut a 2 s t ∧
      t.sp = (if i.mnemonic = .push ∨ i.mnemonic = .call then s.sp - 2 else s.sp) ∧
      (i.mnemonic ≠ .call → t.pc = s.pc + BitVec.ofNat 16 i.length) ∧ (∀ addr, i = .call addr → t.pc = addr) ∧
      t.outcome = some .continued ∧ RegsSameBut [] s t ∧ t.zeroFlag = s.zeroFlag ∧ ControlSame s t ∧ DevicesSame s t

/-- R44: an engine store that lands on the command register first stores both its bytes, then runs the one disk command whose
code is the byte now at `0xE000`, with the arguments as the argument registers hold them at that moment. Which stores count is
the spec's decision D8 (log 16); whether the store opens is the next draw (log 13). -/
def Obligations.EngineStoreToTheCommandRegisterDispatches : Prop :=
  ∀ (s : State) (i : Instr) (a v : Word), s.mem.wf = true → engineStore? i s = some (a, v) →
    (a = 0xE000#16 ∨ a = 0xDFFF#16) →
    ∃ w d t : State, w = { s with mem := w.mem } ∧
      w.readByte a = v.extractLsb' 0 8 ∧ w.readByte (a + 1) = v.extractLsb' 8 8 ∧ MemSameBut a 2 s w ∧
      d = w.diskCommand (Config.storageFails s.diskDraws)
        (if a = 0xE000#16 then v.extractLsb' 0 8 else v.extractLsb' 8 8)
        (w.readByte 0xE003#16 ++ w.readByte 0xE002#16) (w.readByte 0xE005#16 ++ w.readByte 0xE004#16)
        (w.readByte 0xE007#16 ++ w.readByte 0xE006#16) ∧
      exec i s = .next t ∧ t.mem = d.mem ∧ t.store = d.store ∧
      t.diskDraws = s.diskDraws + 1 ∧
      t.sp = (if i.mnemonic = .push ∨ i.mnemonic = .call then s.sp - 2 else s.sp) ∧
      (i.mnemonic ≠ .call → t.pc = s.pc + BitVec.ofNat 16 i.length) ∧ (∀ addr, i = .call addr → t.pc = addr) ∧
      t.outcome = some .continued ∧ RegsSameBut [] s t ∧ t.zeroFlag = s.zeroFlag ∧ ControlSame s t ∧ OtherDevicesSame s t

/-! ### Arithmetic -/

/-- R90: `ADD`, the same register twice included. -/
def Obligations.AddWrapsAndSetsTheFlag : Prop :=
  ∀ (s : State) (a b : Fin 8),
    encode (.add (.gpr a) (.gpr b)) = [0x02#8, BitVec.ofNat 8 a.val, BitVec.ofNat 8 b.val] ∧
    ∃ t, exec (.add (.gpr a) (.gpr b)) s = .next t ∧
      (t.reg a).toNat = ((s.reg a).toNat + (s.reg b).toNat) % 65536 ∧
      (t.zeroFlag = true ↔ ((s.reg a).toNat + (s.reg b).toNat) % 65536 = 0) ∧
      t.pc = s.pc + 3 ∧ t.outcome = some .continued ∧
      RegsSameBut [a] s t ∧ t.sp = s.sp ∧ ControlSame s t ∧ MemSame s t ∧ DevicesSame s t

/-- R91: `SUB`; the flag is 1 exactly when the operands were equal. -/
def Obligations.SubWrapsAndSetsTheFlag : Prop :=
  ∀ (s : State) (a b : Fin 8),
    encode (.sub (.gpr a) (.gpr b)) = [0x03#8, BitVec.ofNat 8 a.val, BitVec.ofNat 8 b.val] ∧
    ∃ t, exec (.sub (.gpr a) (.gpr b)) s = .next t ∧
      (t.reg a).toNat = ((s.reg a).toNat + 65536 - (s.reg b).toNat) % 65536 ∧
      (t.zeroFlag = true ↔ t.reg a = 0) ∧ (t.zeroFlag = true ↔ s.reg a = s.reg b) ∧
      t.pc = s.pc + 3 ∧ t.outcome = some .continued ∧
      RegsSameBut [a] s t ∧ t.sp = s.sp ∧ ControlSame s t ∧ MemSame s t ∧ DevicesSame s t

/-- R92: `CMP` writes the flag and no register. -/
def Obligations.CmpSetsTheFlagOnEquality : Prop :=
  ∀ (s : State) (a b : Fin 8),
    encode (.cmp (.gpr a) (.gpr b)) = [0x09#8, BitVec.ofNat 8 a.val, BitVec.ofNat 8 b.val] ∧
    ∃ t, exec (.cmp (.gpr a) (.gpr b)) s = .next t ∧
      (t.zeroFlag = true ↔ s.reg a = s.reg b) ∧ t.pc = s.pc + 3 ∧ t.outcome = some .continued ∧
      RegsSameBut [] s t ∧ t.sp = s.sp ∧ ControlSame s t ∧ MemSame s t ∧ DevicesSame s t

/-! ### Control flow -/

/-- R100: `JMP`; the jump itself raises nothing, and if the byte at the target is no opcode the next step raises `DecodeError`
with the target as its address. -/
def Obligations.JmpSetsPc : Prop :=
  ∀ (s : State) (a : Word),
    encode (.jmp a) = [0x06#8, a.extractLsb' 0 8, a.extractLsb' 8 8] ∧
    ∃ t, exec (.jmp a) s = .next t ∧ t.pc = a ∧ t.outcome = some .continued ∧
      RegsSameBut [] s t ∧ t.sp = s.sp ∧ t.zeroFlag = s.zeroFlag ∧ ControlSame s t ∧ MemSame s t ∧ DevicesSame s t ∧
      (s.running = true → mnemonicOf? (s.readByte a) = none →
        ∃ u, step t = .next u ∧ u.outcome = some (.decodeError (s.readByte a) a))

/-- R101: `JZ`, taken and not taken. -/
def Obligations.JzJumpsWhenTheFlagIsSet : Prop :=
  ∀ (s : State) (a : Word),
    encode (.jz a) = [0x07#8, a.extractLsb' 0 8, a.extractLsb' 8 8] ∧
    ∃ t, exec (.jz a) s = .next t ∧ (s.zeroFlag = true → t.pc = a) ∧ (s.zeroFlag = false → t.pc = s.pc + 3) ∧
      t.outcome = some .continued ∧
      RegsSameBut [] s t ∧ t.sp = s.sp ∧ t.zeroFlag = s.zeroFlag ∧ ControlSame s t ∧ MemSame s t ∧ DevicesSame s t

/-- R103: `RET` jumps to the word two bytes above `sp`, whoever wrote it. -/
def Obligations.RetPopsPc : Prop :=
  ∀ s : State,
    encode .ret = [0x0D#8] ∧
    ∃ t, exec .ret s = .next t ∧ t.sp = s.sp + 2 ∧
      t.pc.toNat = (s.readByte (s.sp + 2)).toNat + 256 * (s.readByte (s.sp + 3)).toNat ∧ t.outcome = some .continued ∧
      RegsSameBut [] s t ∧ t.zeroFlag = s.zeroFlag ∧ ControlSame s t ∧ MemSame s t ∧ DevicesSame s t

/-- R104: `HALT`, and the steps after it; that `pc` is advanced is the spec's decision D13, that a later step answers `Halted`
D11 (log 21). -/
def Obligations.HaltClearsRunning : Prop :=
  ∀ s : State,
    encode .halt = [0x12#8] ∧
    ∃ t, exec .halt s = .next t ∧ t.running = false ∧ t.outcome = some .halted ∧ t.pc = s.pc + 1 ∧
      t.interactive = s.interactive ∧ t.loaded = s.loaded ∧
      RegsSameBut [] s t ∧ t.sp = s.sp ∧ t.zeroFlag = s.zeroFlag ∧ MemSame s t ∧ DevicesSame s t ∧ step t = .next t

/-- `CALL` and then `RET` brings `pc` back to the instruction after the `CALL`, and `sp` to where it was (the testable property
quoted in R103), where the push runs no disk command, which could overwrite the cell. -/
def Obligations.RetAfterCallReturns : Prop :=
  ∀ (s : State) (a : Word), s.mem.wf = true → s.sp ≠ 0xE000#16 → s.sp ≠ 0xDFFF#16 →
    ∃ t u, exec (.call a) s = .next t ∧ t.pc = a ∧ exec .ret t = .next u ∧ u.pc = s.pc + 3 ∧ u.sp = s.sp

/-! ### Stack -/

/-- R113: `POP`, at any `sp`. -/
def Obligations.PopReadsTheTopCell : Prop :=
  ∀ (s : State) (r : Fin 8),
    encode (.pop (.gpr r)) = [0x0B#8, BitVec.ofNat 8 r.val] ∧
    ∃ t, exec (.pop (.gpr r)) s = .next t ∧ t.sp = s.sp + 2 ∧
      (t.reg r).toNat = (s.readByte (s.sp + 2)).toNat + 256 * (s.readByte (s.sp + 3)).toNat ∧
      t.pc = s.pc + 2 ∧ t.outcome = some .continued ∧
      RegsSameBut [r] s t ∧ t.zeroFlag = s.zeroFlag ∧ ControlSame s t ∧ MemSame s t ∧ DevicesSame s t

/-- `PUSH` and then `POP` is a round trip of the register's value and of `sp` (the testable property quoted in R113), where
the push runs no disk command, which could overwrite the cell. -/
def Obligations.PopAfterPushGivesTheValueBack : Prop :=
  ∀ (s : State) (r d : Fin 8), s.mem.wf = true → s.sp ≠ 0xE000#16 → s.sp ≠ 0xDFFF#16 →
    ∃ t u, exec (.push (.gpr r)) s = .next t ∧ exec (.pop (.gpr d)) t = .next u ∧
      u.reg d = s.reg r ∧ u.sp = s.sp ∧ RegsSameBut [d] s u

/-! ### Input and output -/

/-- R121: `PRINT` emits the 16-bit value on `DIAG`, in both modes; its decimal text is the environment's (the spec's
decision D15, log 27). -/
def Obligations.PrintEmitsTheValue : Prop :=
  ∀ (s : State) (r : Fin 8),
    encode (.print (.gpr r)) = [0x08#8, BitVec.ofNat 8 r.val] ∧
    ∃ t, exec (.print (.gpr r)) s = .next t ∧ t.diag = s.diag ++ [s.reg r] ∧
      t.pc = s.pc + 2 ∧ t.outcome = some .continued ∧ RegsSameBut [] s t ∧ t.sp = s.sp ∧ t.zeroFlag = s.zeroFlag ∧
      ControlSame s t ∧ MemSame s t ∧ DiskSame s t ∧ QueueSame s t ∧ CursorSame s t ∧ HinSame s t ∧ HoutSame s t

/-- Interactive `IN` (spec/44_io.md R122): the oldest pending code, zero-extended (the spec's decision D14), or `Blocked`
with nothing changed. -/
def Obligations.InteractiveInDequeuesOrBlocks : Prop :=
  ∀ (s : State) (r : Fin 8), s.interactive = true →
    (∀ c rest, s.inq.contents = c :: rest →
      ∃ t, exec (.inp (.gpr r)) s = .next t ∧ (t.reg r).toNat = c.toNat ∧ t.inq.contents = rest ∧
        t.pc = s.pc + 2 ∧ t.outcome = some .continued ∧ RegsSameBut [r] s t ∧ t.sp = s.sp ∧ t.zeroFlag = s.zeroFlag ∧
        ControlSame s t ∧ MemSame s t ∧ DiskSame s t ∧ CursorSame s t ∧ HinSame s t ∧ HoutSame s t ∧ DiagSame s t) ∧
    (s.inq.contents = [] → exec (.inp (.gpr r)) s = .next { s with outcome := some .blocked })

/-- Headless `IN` (spec/44_io.md R122): the next byte of the stream, zero-extended; at end-of-input the machine halts with the
register unchanged (the spec's decision D14, log 21); unanswered, the step has no next state (log 12). -/
def Obligations.HeadlessInReadsHaltsOrWaits : Prop :=
  ∀ (s : State) (r : Fin 8), s.interactive = false →
    (∀ b rest, s.hin = b :: rest →
      ∃ t, exec (.inp (.gpr r)) s = .next t ∧ (t.reg r).toNat = b.toNat ∧ t.hin = rest ∧ t.hinEnded = s.hinEnded ∧
        t.pc = s.pc + 2 ∧ t.outcome = some .continued ∧ RegsSameBut [r] s t ∧ t.sp = s.sp ∧ t.zeroFlag = s.zeroFlag ∧
        ControlSame s t ∧ MemSame s t ∧ DiskSame s t ∧ QueueSame s t ∧ CursorSame s t ∧ HoutSame s t ∧ DiagSame s t) ∧
    (s.hin = [] → s.hinEnded = true →
      exec (.inp (.gpr r)) s = .next { s with pc := s.pc + 2, running := false, outcome := some .halted }) ∧
    (s.hin = [] → s.hinEnded = false → exec (.inp (.gpr r)) s = .fault .hinNoAnswer)

/-- R123: `OUT` passes the low byte to the Console Text Model, which writes nothing but the display window, or to `HOUT`, and
then memory and cursor stay. -/
def Obligations.OutPassesTheLowByte : Prop :=
  ∀ (s : State) (r : Fin 8), s.Inv →
    encode (.out (.gpr r)) = [0x0F#8, BitVec.ofNat 8 r.val] ∧
    ∃ t, exec (.out (.gpr r)) s = .next t ∧
      (s.interactive = true →
        t.mem = (s.putChar ((s.reg r).extractLsb' 0 8)).mem ∧ t.curX = (s.putChar ((s.reg r).extractLsb' 0 8)).curX ∧
          t.curY = (s.putChar ((s.reg r).extractLsb' 0 8)).curY ∧ MemSameBut 0xF000#16 2400 s t ∧ HoutSame s t) ∧
      (s.interactive = false → t.hout = s.hout ++ [(s.reg r).extractLsb' 0 8] ∧ MemSame s t ∧ CursorSame s t) ∧
      t.pc = s.pc + 2 ∧ t.outcome = some .continued ∧ RegsSameBut [] s t ∧ t.sp = s.sp ∧ t.zeroFlag = s.zeroFlag ∧
      ControlSame s t ∧ DiskSame s t ∧ QueueSame s t ∧ HinSame s t ∧ DiagSame s t

/-- A blocked `IN` is a poll: however often the machine is stepped, nothing changes until a code is enqueued
(spec/44_io.md R122 a). -/
def Obligations.BlockedInPollsForEver : Prop :=
  ∀ (k : Nat) (s : State) (r : Fin 8), s.running = true → s.interactive = true → s.inq.head = s.inq.tail →
    s.fetch = .ok (.inp (.gpr r)) →
    Sys2Proof.core.run (k + 1) s = .next { s with outcome := some .blocked }

/-! ### The Console Text Model -/

/-- R161, R162, R164: the three control bytes move the cursor and write no cell. Past the last row a newline scrolls (R165). That
backspace erases nothing is the spec's decision D18, the numbers of newline and return its general knowledge (log 20). -/
def Obligations.ControlBytesMoveTheCursor : Prop :=
  ∀ s : State, s.curY < 30 →
    (s.curY < 29 → s.putChar 0x0A#8 = { s with curX := 0, curY := s.curY + 1 }) ∧
    (s.curY = 29 → s.putChar 0x0A#8 = State.consoleScroll { s with curX := 0, curY := 30 }) ∧
    s.putChar 0x0D#8 = { s with curX := 0 } ∧
    (0 < s.curX → s.putChar 0x08#8 = { s with curX := s.curX - 1 }) ∧
    (s.curX = 0 → 0 < s.curY → s.putChar 0x08#8 = { s with curX := 79, curY := s.curY - 1 }) ∧
    (s.curX = 0 → s.curY = 0 → s.putChar 0x08#8 = s)

/-- R163: any other byte goes into the cursor's cell as it is, nothing else of memory changes, and the cursor moves on, to the
next row past the last column; at the last cell of the grid the display then scrolls (R165). -/
def Obligations.OtherBytesFillTheCell : Prop :=
  ∀ (s : State) (c : Byte), s.Inv → c ≠ 0x0A#8 → c ≠ 0x0D#8 → c ≠ 0x08#8 →
    ∃ w : State, w = { s with mem := w.mem } ∧ w.displayCell s.curY s.curX = c ∧
      (∀ a, a ≠ BitVec.ofNat 16 (0xF000 + 80 * s.curY + s.curX) → w.readByte a = s.readByte a) ∧
      (s.curX < 79 → s.putChar c = { w with curX := s.curX + 1 }) ∧
      (s.curX = 79 → s.curY < 29 → s.putChar c = { w with curX := 0, curY := s.curY + 1 }) ∧
      (s.curX = 79 → s.curY = 29 → s.putChar c = State.consoleScroll { w with curX := 0, curY := 30 })

/-- R165: past the last row, rows 1 to 29 become rows 0 to 28, row 29 is cleared to `0x00` (the spec's decision D18, log 20), no
byte outside the window changes and the cursor's row is 29; otherwise nothing happens. -/
def Obligations.ScrollMovesRowsUp : Prop :=
  ∀ s : State, s.mem.wf = true →
    (s.curY ≠ 30 → s.consoleScroll = s) ∧
    (s.curY = 30 →
      ∃ t : State, s.consoleScroll = t ∧ t = { s with mem := t.mem, curY := 29 } ∧
        (∀ y x, y < 29 → x < 80 → t.displayCell y x = s.displayCell (y + 1) x) ∧
        (∀ x, x < 80 → t.displayCell 29 x = 0x00#8) ∧ MemSameBut 0xF000#16 2400 s t)

/-- 81 characters of plain text from column 0 of a row above the last leave the cursor at column 1 of the next row and the row
full (R166, for row 0). -/
def Obligations.EightyOneCharactersFillARow : Prop :=
  ∀ (s : State) (text : List Byte), s.mem.wf = true → s.curX = 0 → s.curY < 29 → text.length = 81 →
    (∀ c ∈ text, c ≠ 0x0A#8 ∧ c ≠ 0x0D#8 ∧ c ≠ 0x08#8) →
    ∃ t : State, text.foldl State.putChar s = t ∧ t.curX = 1 ∧ t.curY = s.curY + 1 ∧
      (∀ (x : Nat) (h : x < text.length), x < 80 → t.displayCell s.curY x = text[x]) ∧
      (∀ h : 80 < text.length, t.displayCell (s.curY + 1) 0 = text[80])

/-! ### The Disk Controller -/

/-- A dropped command changes nothing at all (R151), and neither does a code other than 1, 2, 3 (R150, the spec's decision
D10, log 17). -/
def Obligations.DroppedOrUnknownCommandDoesNothing : Prop :=
  ∀ (s : State) (fails : Bool) (cmd : Byte) (namePtr dataPtr size : Word),
    (fails = true ∨ (cmd ≠ 1#8 ∧ cmd ≠ 2#8 ∧ cmd ≠ 3#8)) → s.diskCommand fails cmd namePtr dataPtr size = s

/-- R152: List. Byte `k` of what it writes is read back wherever no later byte of the same command fell on the same address
(always, below 3855 entries). The newline's number is the spec's general knowledge (log 20). -/
def Obligations.ListWritesTheDirectory : Prop :=
  ∀ (s : State) (namePtr dataPtr size : Word), s.mem.wf = true →
    ∃ t : State, s.diskCommand false 1#8 namePtr dataPtr size = t ∧ t = { s with mem := t.mem } ∧
      (∀ (i j : Nat) (hi : i < s.store.length) (hj : j < 16), 17 * s.store.length < 17 * i + j + 65536 →
        t.readByte (dataPtr + BitVec.ofNat 16 (17 * i + j)) = s.store[i].name[j]) ∧
      (∀ i, i < s.store.length → 17 * s.store.length < 17 * i + 16 + 65536 →
        t.readByte (dataPtr + BitVec.ofNat 16 (17 * i + 16)) = 0x0A#8) ∧
      t.readByte (dataPtr + BitVec.ofNat 16 (17 * s.store.length)) = 0x00#8 ∧
      MemSameBut dataPtr (17 * s.store.length + 1) s t

/-- R154 and R153: Read-by-name copies the first matching entry's payload, then writes the low 16 bits of its size to the
size register; without a match it writes nothing. The key is the spec's decision D20 (log 18). -/
def Obligations.ReadByNameCopiesTheFirstMatch : Prop :=
  ∀ (s : State) (namePtr dataPtr size : Word) (key : Vector Byte 16), s.mem.wf = true →
    (∀ j (h : j < 16), key[j] = if j < 15 then s.readByte (namePtr + BitVec.ofNat 16 j) else 0x00#8) →
    ((∀ e ∈ s.store, e.name ≠ key) → s.diskCommand false 2#8 namePtr dataPtr size = s) ∧
    (∀ before e after, s.store = before ++ e :: after → (∀ d ∈ before, d.name ≠ key) → e.name = key →
      ∃ t : State, s.diskCommand false 2#8 namePtr dataPtr size = t ∧ t = { s with mem := t.mem } ∧
        (t.readByte 0xE006#16).toNat + 256 * (t.readByte 0xE007#16).toNat = e.payload.length % 65536 ∧
        (∀ (k : Nat) (h : k < e.payload.length), e.payload.length ≤ k + 65536 →
          dataPtr + BitVec.ofNat 16 k ≠ 0xE006#16 → dataPtr + BitVec.ofNat 16 k ≠ 0xE007#16 →
          t.readByte (dataPtr + BitVec.ofNat 16 k) = e.payload[k]) ∧
        ∀ a, a ≠ 0xE006#16 → a ≠ 0xE007#16 → (∀ k < e.payload.length, a ≠ dataPtr + BitVec.ofNat 16 k) →
          t.readByte a = s.readByte a)

/-- R155 and R153: Write-by-name appends one entry, the key and the `size` bytes at the data pointer, and writes no byte of
memory (below the 65535 entries that R158 bounds, log 15). The key is the spec's decision D20 (log 18). -/
def Obligations.WriteByNameAppendsOneEntry : Prop :=
  ∀ (s : State) (namePtr dataPtr size : Word), s.store.length < 65535 →
    ∃ e : DirEntry,
      s.diskCommand false 3#8 namePtr dataPtr size = { s with store := s.store ++ [e] } ∧
      (∀ j (h : j < 16), e.name[j] = if j < 15 then s.readByte (namePtr + BitVec.ofNat 16 j) else 0x00#8) ∧
      e.payload.length = size.toNat ∧
      ∀ (k : Nat) (h : k < e.payload.length), e.payload[k] = s.readByte (dataPtr + BitVec.ofNat 16 k)

/-- Write-by-name and then Read-by-name with the same name, on an empty store, gives back exactly the bytes written and the
size (the round-trip property quoted in spec/60_exceptions.md section 8). -/
def Obligations.ReadAfterWriteGivesTheBytesBack : Prop :=
  ∀ (s : State) (namePtr source target size other : Word), s.mem.wf = true → s.store = [] →
    ∃ t : State,
      (s.diskCommand false 3#8 namePtr source size).diskCommand false 2#8 namePtr target other = t ∧
      (t.readByte 0xE006#16).toNat + 256 * (t.readByte 0xE007#16).toNat = size.toNat ∧
      ∀ k < size.toNat, target + BitVec.ofNat 16 k ≠ 0xE006#16 → target + BitVec.ofNat 16 k ≠ 0xE007#16 →
        t.readByte (target + BitVec.ofNat 16 k) = s.readByte (source + BitVec.ofNat 16 k)

/-- R45: the Disk Controller's, the console's and the loader's writes never dispatch, whatever address they hit: no draw is
taken, and but for Write-by-name's own entry the store stays (the spec's decision D9, log 16). -/
def Obligations.DeviceWritesNeverDispatch : Prop :=
  ∀ s : State,
    (∀ fails cmd namePtr dataPtr size, (s.diskCommand fails cmd namePtr dataPtr size).diskDraws = s.diskDraws ∧
      (cmd ≠ 3#8 → (s.diskCommand fails cmd namePtr dataPtr size).store = s.store)) ∧
    (∀ c, DiskSame s (s.putChar c)) ∧
    ∀ image t, s.load image = .next t → DiskSame s t

/-! ### The Input Queue -/

/-- R170, R171: the ring is a first-in first-out queue of up to 63 codes: the host's `enqueue` stores the code at the tail and
appends it, `dequeue` takes the oldest and answers none exactly when nothing is pending. With 63 pending an enqueue is
open (R172, log 14). -/
def Obligations.QueueIsFirstInFirstOut : Prop :=
  (∀ (s : State) (c : Byte), s.interactive = true → s.inq.contents.length < 63 →
    ∃ q, s.enqueue c = .next { s with inq := q } ∧ q.contents = s.inq.contents ++ [c] ∧ q.head = s.inq.head ∧
      q.tail.val = (s.inq.tail.val + 1) % 64 ∧ q.buf = s.inq.buf.set s.inq.tail.val c) ∧
  ∀ q : InputQueue,
    (q.dequeue? = none ↔ q.contents = []) ∧
    (∀ c rest, q.contents = c :: rest →
      ∃ q', q.dequeue? = some (c, q') ∧ q'.contents = rest ∧ q'.head.val = (q.head.val + 1) % 64 ∧
        q'.tail = q.tail ∧ q'.buf = q.buf ∧ c = q.buf[q.head.val])
end

