-- ==== Sys2Proof/Laws/State.lean ====
section
/-! SUPPORT. One lemma per field of State per update, true by rfl, so that no later proof unfolds a record update. -/

namespace Sys2Proof.Machine

/-! ### What the configuration of this hardware makes of the byte order and of addresses -/

/-- The low byte of data lies at the lower address (R31). -/
@[simp] theorem firstByte_eq (v : Word) : firstByte v = lowByte v := rfl

@[simp] theorem secondByte_eq (v : Word) : secondByte v = highByte v := rfl

@[simp] theorem wordInMemory_eq (first second : Byte) : wordInMemory first second = wordOfBytes first second := rfl

/-- Addresses are modulo 65536 (R36). -/
@[simp] theorem addrAdd_eq (a n : Word) : addrAdd a n = add16 a n := rfl

@[simp] theorem addrSub_eq (a n : Word) : addrSub a n = sub16 a n := rfl

/-! ### `State.setReg` -/

@[simp] theorem State.setReg_regs (s : State) (r : Fin 8) (v : Word) : (s.setReg r v).regs = s.regs.set r v := rfl
@[simp] theorem State.setReg_pc (s : State) (r : Fin 8) (v : Word) : (s.setReg r v).pc = s.pc := rfl
@[simp] theorem State.setReg_sp (s : State) (r : Fin 8) (v : Word) : (s.setReg r v).sp = s.sp := rfl
@[simp] theorem State.setReg_zeroFlag (s : State) (r : Fin 8) (v : Word) : (s.setReg r v).zeroFlag = s.zeroFlag := rfl
@[simp] theorem State.setReg_running (s : State) (r : Fin 8) (v : Word) : (s.setReg r v).running = s.running := rfl
@[simp] theorem State.setReg_interactive (s : State) (r : Fin 8) (v : Word) : (s.setReg r v).interactive = s.interactive := rfl
@[simp] theorem State.setReg_mem (s : State) (r : Fin 8) (v : Word) : (s.setReg r v).mem = s.mem := rfl
@[simp] theorem State.setReg_inq (s : State) (r : Fin 8) (v : Word) : (s.setReg r v).inq = s.inq := rfl
@[simp] theorem State.setReg_curX (s : State) (r : Fin 8) (v : Word) : (s.setReg r v).curX = s.curX := rfl
@[simp] theorem State.setReg_curY (s : State) (r : Fin 8) (v : Word) : (s.setReg r v).curY = s.curY := rfl
@[simp] theorem State.setReg_store (s : State) (r : Fin 8) (v : Word) : (s.setReg r v).store = s.store := rfl
@[simp] theorem State.setReg_hin (s : State) (r : Fin 8) (v : Word) : (s.setReg r v).hin = s.hin := rfl
@[simp] theorem State.setReg_hinEnded (s : State) (r : Fin 8) (v : Word) : (s.setReg r v).hinEnded = s.hinEnded := rfl
@[simp] theorem State.setReg_hout (s : State) (r : Fin 8) (v : Word) : (s.setReg r v).hout = s.hout := rfl
@[simp] theorem State.setReg_diag (s : State) (r : Fin 8) (v : Word) : (s.setReg r v).diag = s.diag := rfl
@[simp] theorem State.setReg_outcome (s : State) (r : Fin 8) (v : Word) : (s.setReg r v).outcome = s.outcome := rfl
@[simp] theorem State.setReg_diskDraws (s : State) (r : Fin 8) (v : Word) : (s.setReg r v).diskDraws = s.diskDraws := rfl
@[simp] theorem State.setReg_loaded (s : State) (r : Fin 8) (v : Word) : (s.setReg r v).loaded = s.loaded := rfl

/-! ### `State.rawWrite` -/

@[simp] theorem State.rawWrite_regs (s : State) (a : Word) (b : Byte) : (s.rawWrite a b).regs = s.regs := rfl
@[simp] theorem State.rawWrite_pc (s : State) (a : Word) (b : Byte) : (s.rawWrite a b).pc = s.pc := rfl
@[simp] theorem State.rawWrite_sp (s : State) (a : Word) (b : Byte) : (s.rawWrite a b).sp = s.sp := rfl
@[simp] theorem State.rawWrite_zeroFlag (s : State) (a : Word) (b : Byte) : (s.rawWrite a b).zeroFlag = s.zeroFlag := rfl
@[simp] theorem State.rawWrite_running (s : State) (a : Word) (b : Byte) : (s.rawWrite a b).running = s.running := rfl
@[simp] theorem State.rawWrite_interactive (s : State) (a : Word) (b : Byte) : (s.rawWrite a b).interactive = s.interactive := rfl
@[simp] theorem State.rawWrite_mem (s : State) (a : Word) (b : Byte) : (s.rawWrite a b).mem = s.mem.write a.toNat b := rfl
@[simp] theorem State.rawWrite_inq (s : State) (a : Word) (b : Byte) : (s.rawWrite a b).inq = s.inq := rfl
@[simp] theorem State.rawWrite_curX (s : State) (a : Word) (b : Byte) : (s.rawWrite a b).curX = s.curX := rfl
@[simp] theorem State.rawWrite_curY (s : State) (a : Word) (b : Byte) : (s.rawWrite a b).curY = s.curY := rfl
@[simp] theorem State.rawWrite_store (s : State) (a : Word) (b : Byte) : (s.rawWrite a b).store = s.store := rfl
@[simp] theorem State.rawWrite_hin (s : State) (a : Word) (b : Byte) : (s.rawWrite a b).hin = s.hin := rfl
@[simp] theorem State.rawWrite_hinEnded (s : State) (a : Word) (b : Byte) : (s.rawWrite a b).hinEnded = s.hinEnded := rfl
@[simp] theorem State.rawWrite_hout (s : State) (a : Word) (b : Byte) : (s.rawWrite a b).hout = s.hout := rfl
@[simp] theorem State.rawWrite_diag (s : State) (a : Word) (b : Byte) : (s.rawWrite a b).diag = s.diag := rfl
@[simp] theorem State.rawWrite_outcome (s : State) (a : Word) (b : Byte) : (s.rawWrite a b).outcome = s.outcome := rfl
@[simp] theorem State.rawWrite_diskDraws (s : State) (a : Word) (b : Byte) : (s.rawWrite a b).diskDraws = s.diskDraws := rfl
@[simp] theorem State.rawWrite_loaded (s : State) (a : Word) (b : Byte) : (s.rawWrite a b).loaded = s.loaded := rfl

/-! ### `State.rawWrites` -/

@[simp] theorem State.rawWrites_regs (s : State) (a : Word) (bs : List Byte) : (s.rawWrites a bs).regs = s.regs := rfl
@[simp] theorem State.rawWrites_pc (s : State) (a : Word) (bs : List Byte) : (s.rawWrites a bs).pc = s.pc := rfl
@[simp] theorem State.rawWrites_sp (s : State) (a : Word) (bs : List Byte) : (s.rawWrites a bs).sp = s.sp := rfl
@[simp] theorem State.rawWrites_zeroFlag (s : State) (a : Word) (bs : List Byte) : (s.rawWrites a bs).zeroFlag = s.zeroFlag := rfl
@[simp] theorem State.rawWrites_running (s : State) (a : Word) (bs : List Byte) : (s.rawWrites a bs).running = s.running := rfl
@[simp] theorem State.rawWrites_interactive (s : State) (a : Word) (bs : List Byte) : (s.rawWrites a bs).interactive = s.interactive := rfl
@[simp] theorem State.rawWrites_mem (s : State) (a : Word) (bs : List Byte) : (s.rawWrites a bs).mem = s.mem.writeRun a bs := rfl
@[simp] theorem State.rawWrites_inq (s : State) (a : Word) (bs : List Byte) : (s.rawWrites a bs).inq = s.inq := rfl
@[simp] theorem State.rawWrites_curX (s : State) (a : Word) (bs : List Byte) : (s.rawWrites a bs).curX = s.curX := rfl
@[simp] theorem State.rawWrites_curY (s : State) (a : Word) (bs : List Byte) : (s.rawWrites a bs).curY = s.curY := rfl
@[simp] theorem State.rawWrites_store (s : State) (a : Word) (bs : List Byte) : (s.rawWrites a bs).store = s.store := rfl
@[simp] theorem State.rawWrites_hin (s : State) (a : Word) (bs : List Byte) : (s.rawWrites a bs).hin = s.hin := rfl
@[simp] theorem State.rawWrites_hinEnded (s : State) (a : Word) (bs : List Byte) : (s.rawWrites a bs).hinEnded = s.hinEnded := rfl
@[simp] theorem State.rawWrites_hout (s : State) (a : Word) (bs : List Byte) : (s.rawWrites a bs).hout = s.hout := rfl
@[simp] theorem State.rawWrites_diag (s : State) (a : Word) (bs : List Byte) : (s.rawWrites a bs).diag = s.diag := rfl
@[simp] theorem State.rawWrites_outcome (s : State) (a : Word) (bs : List Byte) : (s.rawWrites a bs).outcome = s.outcome := rfl
@[simp] theorem State.rawWrites_diskDraws (s : State) (a : Word) (bs : List Byte) : (s.rawWrites a bs).diskDraws = s.diskDraws := rfl
@[simp] theorem State.rawWrites_loaded (s : State) (a : Word) (bs : List Byte) : (s.rawWrites a bs).loaded = s.loaded := rfl

/-! ### `State.advance` -/

@[simp] theorem State.advance_regs (s : State) (m : Mnemonic) : (s.advance m).regs = s.regs := rfl
@[simp] theorem State.advance_pc (s : State) (m : Mnemonic) : (s.advance m).pc = add16 s.pc (BitVec.ofNat 16 m.length) := rfl
@[simp] theorem State.advance_sp (s : State) (m : Mnemonic) : (s.advance m).sp = s.sp := rfl
@[simp] theorem State.advance_zeroFlag (s : State) (m : Mnemonic) : (s.advance m).zeroFlag = s.zeroFlag := rfl
@[simp] theorem State.advance_running (s : State) (m : Mnemonic) : (s.advance m).running = s.running := rfl
@[simp] theorem State.advance_interactive (s : State) (m : Mnemonic) : (s.advance m).interactive = s.interactive := rfl
@[simp] theorem State.advance_mem (s : State) (m : Mnemonic) : (s.advance m).mem = s.mem := rfl
@[simp] theorem State.advance_inq (s : State) (m : Mnemonic) : (s.advance m).inq = s.inq := rfl
@[simp] theorem State.advance_curX (s : State) (m : Mnemonic) : (s.advance m).curX = s.curX := rfl
@[simp] theorem State.advance_curY (s : State) (m : Mnemonic) : (s.advance m).curY = s.curY := rfl
@[simp] theorem State.advance_store (s : State) (m : Mnemonic) : (s.advance m).store = s.store := rfl
@[simp] theorem State.advance_hin (s : State) (m : Mnemonic) : (s.advance m).hin = s.hin := rfl
@[simp] theorem State.advance_hinEnded (s : State) (m : Mnemonic) : (s.advance m).hinEnded = s.hinEnded := rfl
@[simp] theorem State.advance_hout (s : State) (m : Mnemonic) : (s.advance m).hout = s.hout := rfl
@[simp] theorem State.advance_diag (s : State) (m : Mnemonic) : (s.advance m).diag = s.diag := rfl
@[simp] theorem State.advance_outcome (s : State) (m : Mnemonic) : (s.advance m).outcome = some .continued := rfl
@[simp] theorem State.advance_diskDraws (s : State) (m : Mnemonic) : (s.advance m).diskDraws = s.diskDraws := rfl
@[simp] theorem State.advance_loaded (s : State) (m : Mnemonic) : (s.advance m).loaded = s.loaded := rfl

/-! ### `State.stopHalted` -/

@[simp] theorem State.stopHalted_regs (s : State) : (s.stopHalted).regs = s.regs := rfl
@[simp] theorem State.stopHalted_pc (s : State) : (s.stopHalted).pc = s.pc := rfl
@[simp] theorem State.stopHalted_sp (s : State) : (s.stopHalted).sp = s.sp := rfl
@[simp] theorem State.stopHalted_zeroFlag (s : State) : (s.stopHalted).zeroFlag = s.zeroFlag := rfl
@[simp] theorem State.stopHalted_running (s : State) : (s.stopHalted).running = false := rfl
@[simp] theorem State.stopHalted_interactive (s : State) : (s.stopHalted).interactive = s.interactive := rfl
@[simp] theorem State.stopHalted_mem (s : State) : (s.stopHalted).mem = s.mem := rfl
@[simp] theorem State.stopHalted_inq (s : State) : (s.stopHalted).inq = s.inq := rfl
@[simp] theorem State.stopHalted_curX (s : State) : (s.stopHalted).curX = s.curX := rfl
@[simp] theorem State.stopHalted_curY (s : State) : (s.stopHalted).curY = s.curY := rfl
@[simp] theorem State.stopHalted_store (s : State) : (s.stopHalted).store = s.store := rfl
@[simp] theorem State.stopHalted_hin (s : State) : (s.stopHalted).hin = s.hin := rfl
@[simp] theorem State.stopHalted_hinEnded (s : State) : (s.stopHalted).hinEnded = s.hinEnded := rfl
@[simp] theorem State.stopHalted_hout (s : State) : (s.stopHalted).hout = s.hout := rfl
@[simp] theorem State.stopHalted_diag (s : State) : (s.stopHalted).diag = s.diag := rfl
@[simp] theorem State.stopHalted_outcome (s : State) : (s.stopHalted).outcome = some .halted := rfl
@[simp] theorem State.stopHalted_diskDraws (s : State) : (s.stopHalted).diskDraws = s.diskDraws := rfl
@[simp] theorem State.stopHalted_loaded (s : State) : (s.stopHalted).loaded = s.loaded := rfl

/-! ### `State.raiseDecodeError` -/

@[simp] theorem State.raiseDecodeError_regs (s : State) (op : Byte) (a : Word) : (s.raiseDecodeError op a).regs = s.regs := rfl
@[simp] theorem State.raiseDecodeError_pc (s : State) (op : Byte) (a : Word) : (s.raiseDecodeError op a).pc = a := rfl
@[simp] theorem State.raiseDecodeError_sp (s : State) (op : Byte) (a : Word) : (s.raiseDecodeError op a).sp = s.sp := rfl
@[simp] theorem State.raiseDecodeError_zeroFlag (s : State) (op : Byte) (a : Word) : (s.raiseDecodeError op a).zeroFlag = s.zeroFlag := rfl
@[simp] theorem State.raiseDecodeError_running (s : State) (op : Byte) (a : Word) : (s.raiseDecodeError op a).running = false := rfl
@[simp] theorem State.raiseDecodeError_interactive (s : State) (op : Byte) (a : Word) : (s.raiseDecodeError op a).interactive = s.interactive := rfl
@[simp] theorem State.raiseDecodeError_mem (s : State) (op : Byte) (a : Word) : (s.raiseDecodeError op a).mem = s.mem := rfl
@[simp] theorem State.raiseDecodeError_inq (s : State) (op : Byte) (a : Word) : (s.raiseDecodeError op a).inq = s.inq := rfl
@[simp] theorem State.raiseDecodeError_curX (s : State) (op : Byte) (a : Word) : (s.raiseDecodeError op a).curX = s.curX := rfl
@[simp] theorem State.raiseDecodeError_curY (s : State) (op : Byte) (a : Word) : (s.raiseDecodeError op a).curY = s.curY := rfl
@[simp] theorem State.raiseDecodeError_store (s : State) (op : Byte) (a : Word) : (s.raiseDecodeError op a).store = s.store := rfl
@[simp] theorem State.raiseDecodeError_hin (s : State) (op : Byte) (a : Word) : (s.raiseDecodeError op a).hin = s.hin := rfl
@[simp] theorem State.raiseDecodeError_hinEnded (s : State) (op : Byte) (a : Word) : (s.raiseDecodeError op a).hinEnded = s.hinEnded := rfl
@[simp] theorem State.raiseDecodeError_hout (s : State) (op : Byte) (a : Word) : (s.raiseDecodeError op a).hout = s.hout := rfl
@[simp] theorem State.raiseDecodeError_diag (s : State) (op : Byte) (a : Word) : (s.raiseDecodeError op a).diag = s.diag := rfl
@[simp] theorem State.raiseDecodeError_outcome (s : State) (op : Byte) (a : Word) : (s.raiseDecodeError op a).outcome = some (.decodeError op a) := rfl
@[simp] theorem State.raiseDecodeError_diskDraws (s : State) (op : Byte) (a : Word) : (s.raiseDecodeError op a).diskDraws = s.diskDraws := rfl
@[simp] theorem State.raiseDecodeError_loaded (s : State) (op : Byte) (a : Word) : (s.raiseDecodeError op a).loaded = s.loaded := rfl

/-! ### `State.setZeroOf` -/

@[simp] theorem State.setZeroOf_regs (s : State) (v : Word) : (s.setZeroOf v).regs = s.regs := rfl
@[simp] theorem State.setZeroOf_pc (s : State) (v : Word) : (s.setZeroOf v).pc = s.pc := rfl
@[simp] theorem State.setZeroOf_sp (s : State) (v : Word) : (s.setZeroOf v).sp = s.sp := rfl
@[simp] theorem State.setZeroOf_zeroFlag (s : State) (v : Word) : (s.setZeroOf v).zeroFlag = decide (v = 0#16) := rfl
@[simp] theorem State.setZeroOf_running (s : State) (v : Word) : (s.setZeroOf v).running = s.running := rfl
@[simp] theorem State.setZeroOf_interactive (s : State) (v : Word) : (s.setZeroOf v).interactive = s.interactive := rfl
@[simp] theorem State.setZeroOf_mem (s : State) (v : Word) : (s.setZeroOf v).mem = s.mem := rfl
@[simp] theorem State.setZeroOf_inq (s : State) (v : Word) : (s.setZeroOf v).inq = s.inq := rfl
@[simp] theorem State.setZeroOf_curX (s : State) (v : Word) : (s.setZeroOf v).curX = s.curX := rfl
@[simp] theorem State.setZeroOf_curY (s : State) (v : Word) : (s.setZeroOf v).curY = s.curY := rfl
@[simp] theorem State.setZeroOf_store (s : State) (v : Word) : (s.setZeroOf v).store = s.store := rfl
@[simp] theorem State.setZeroOf_hin (s : State) (v : Word) : (s.setZeroOf v).hin = s.hin := rfl
@[simp] theorem State.setZeroOf_hinEnded (s : State) (v : Word) : (s.setZeroOf v).hinEnded = s.hinEnded := rfl
@[simp] theorem State.setZeroOf_hout (s : State) (v : Word) : (s.setZeroOf v).hout = s.hout := rfl
@[simp] theorem State.setZeroOf_diag (s : State) (v : Word) : (s.setZeroOf v).diag = s.diag := rfl
@[simp] theorem State.setZeroOf_outcome (s : State) (v : Word) : (s.setZeroOf v).outcome = s.outcome := rfl
@[simp] theorem State.setZeroOf_diskDraws (s : State) (v : Word) : (s.setZeroOf v).diskDraws = s.diskDraws := rfl
@[simp] theorem State.setZeroOf_loaded (s : State) (v : Word) : (s.setZeroOf v).loaded = s.loaded := rfl

/-! ### `State.setZeroEq` -/

@[simp] theorem State.setZeroEq_regs (s : State) (a b : Word) : (s.setZeroEq a b).regs = s.regs := rfl
@[simp] theorem State.setZeroEq_pc (s : State) (a b : Word) : (s.setZeroEq a b).pc = s.pc := rfl
@[simp] theorem State.setZeroEq_sp (s : State) (a b : Word) : (s.setZeroEq a b).sp = s.sp := rfl
@[simp] theorem State.setZeroEq_zeroFlag (s : State) (a b : Word) : (s.setZeroEq a b).zeroFlag = decide (a = b) := rfl
@[simp] theorem State.setZeroEq_running (s : State) (a b : Word) : (s.setZeroEq a b).running = s.running := rfl
@[simp] theorem State.setZeroEq_interactive (s : State) (a b : Word) : (s.setZeroEq a b).interactive = s.interactive := rfl
@[simp] theorem State.setZeroEq_mem (s : State) (a b : Word) : (s.setZeroEq a b).mem = s.mem := rfl
@[simp] theorem State.setZeroEq_inq (s : State) (a b : Word) : (s.setZeroEq a b).inq = s.inq := rfl
@[simp] theorem State.setZeroEq_curX (s : State) (a b : Word) : (s.setZeroEq a b).curX = s.curX := rfl
@[simp] theorem State.setZeroEq_curY (s : State) (a b : Word) : (s.setZeroEq a b).curY = s.curY := rfl
@[simp] theorem State.setZeroEq_store (s : State) (a b : Word) : (s.setZeroEq a b).store = s.store := rfl
@[simp] theorem State.setZeroEq_hin (s : State) (a b : Word) : (s.setZeroEq a b).hin = s.hin := rfl
@[simp] theorem State.setZeroEq_hinEnded (s : State) (a b : Word) : (s.setZeroEq a b).hinEnded = s.hinEnded := rfl
@[simp] theorem State.setZeroEq_hout (s : State) (a b : Word) : (s.setZeroEq a b).hout = s.hout := rfl
@[simp] theorem State.setZeroEq_diag (s : State) (a b : Word) : (s.setZeroEq a b).diag = s.diag := rfl
@[simp] theorem State.setZeroEq_outcome (s : State) (a b : Word) : (s.setZeroEq a b).outcome = s.outcome := rfl
@[simp] theorem State.setZeroEq_diskDraws (s : State) (a b : Word) : (s.setZeroEq a b).diskDraws = s.diskDraws := rfl
@[simp] theorem State.setZeroEq_loaded (s : State) (a b : Word) : (s.setZeroEq a b).loaded = s.loaded := rfl

/-! ### `State.storeBytes` -/

@[simp] theorem State.storeBytes_regs (s : State) (a v : Word) : (s.storeBytes a v).regs = s.regs := rfl
@[simp] theorem State.storeBytes_pc (s : State) (a v : Word) : (s.storeBytes a v).pc = s.pc := rfl
@[simp] theorem State.storeBytes_sp (s : State) (a v : Word) : (s.storeBytes a v).sp = s.sp := rfl
@[simp] theorem State.storeBytes_zeroFlag (s : State) (a v : Word) : (s.storeBytes a v).zeroFlag = s.zeroFlag := rfl
@[simp] theorem State.storeBytes_running (s : State) (a v : Word) : (s.storeBytes a v).running = s.running := rfl
@[simp] theorem State.storeBytes_interactive (s : State) (a v : Word) : (s.storeBytes a v).interactive = s.interactive := rfl
@[simp] theorem State.storeBytes_mem (s : State) (a v : Word) : (s.storeBytes a v).mem = (s.mem.write a.toNat (lowByte v)).write (add16 a 1).toNat (highByte v) := rfl
@[simp] theorem State.storeBytes_inq (s : State) (a v : Word) : (s.storeBytes a v).inq = s.inq := rfl
@[simp] theorem State.storeBytes_curX (s : State) (a v : Word) : (s.storeBytes a v).curX = s.curX := rfl
@[simp] theorem State.storeBytes_curY (s : State) (a v : Word) : (s.storeBytes a v).curY = s.curY := rfl
@[simp] theorem State.storeBytes_store (s : State) (a v : Word) : (s.storeBytes a v).store = s.store := rfl
@[simp] theorem State.storeBytes_hin (s : State) (a v : Word) : (s.storeBytes a v).hin = s.hin := rfl
@[simp] theorem State.storeBytes_hinEnded (s : State) (a v : Word) : (s.storeBytes a v).hinEnded = s.hinEnded := rfl
@[simp] theorem State.storeBytes_hout (s : State) (a v : Word) : (s.storeBytes a v).hout = s.hout := rfl
@[simp] theorem State.storeBytes_diag (s : State) (a v : Word) : (s.storeBytes a v).diag = s.diag := rfl
@[simp] theorem State.storeBytes_outcome (s : State) (a v : Word) : (s.storeBytes a v).outcome = s.outcome := rfl
@[simp] theorem State.storeBytes_diskDraws (s : State) (a v : Word) : (s.storeBytes a v).diskDraws = s.diskDraws := rfl
@[simp] theorem State.storeBytes_loaded (s : State) (a v : Word) : (s.storeBytes a v).loaded = s.loaded := rfl

end Sys2Proof.Machine
end

