-- ==== Sys2Proof/Laws/Memory.lean ====
section
/-! SUPPORT. The laws of memory: read after write, the canonical form is kept, and what a run of writes leaves. -/

namespace Sys2Proof.Machine

/-! ### The canonical form, taken apart -/

theorem Memory.wf_nil : Memory.wf [] = true := by decide

theorem Memory.wf_cons (k : Nat) (v : Byte) (t : Memory) :
    Memory.wf ((k, v) :: t) = true ↔
      (∀ c ∈ t, k < c.1) ∧ k < Config.memSize ∧ v ≠ Memory.unlisted ∧ Memory.wf t = true := by
  simp only [Memory.wf, List.pairwise_cons, List.all_cons, Bool.and_eq_true, decide_eq_true_eq]
  tauto

/-- An address below every listed one is not listed. -/
theorem Memory.read_of_lt (t : Memory) (a : Nat) (h : ∀ c ∈ t, a < c.1) : t.read a = Memory.unlisted := by
  induction t with
  | nil => rfl
  | cons c t ih =>
    have hc := h c (by simp)
    simp only [Memory.read]
    rw [if_neg (by omega)]
    exact ih fun d hd => h d (by simp [hd])

/-! ### One write -/

/-- The addresses listed after a write were listed before, or are the one written. -/
theorem Memory.mem_write (m : Memory) (a : Nat) (b : Byte) (c : Host.Cell) (h : c ∈ m.write a b) :
    c ∈ m ∨ (c = (a, b) ∧ b ≠ Memory.unlisted) := by
  induction m with
  | nil =>
    simp only [Memory.write] at h
    split at h <;> simp_all
  | cons d t ih =>
    obtain ⟨k, v⟩ := d
    simp only [Memory.write] at h
    split at h
    · split at h
      · exact .inl h
      · rcases List.mem_cons.mp h with h | h
        · exact .inr ⟨h, ‹_›⟩
        · exact .inl h
    · split at h
      · split at h
        · exact .inl (List.mem_cons_of_mem _ h)
        · rcases List.mem_cons.mp h with h | h
          · exact .inr ⟨h, ‹_›⟩
          · exact .inl (List.mem_cons_of_mem _ h)
      · rcases List.mem_cons.mp h with h | h
        · exact .inl (h ▸ List.mem_cons_self)
        · exact (ih h).imp (List.mem_cons_of_mem _) id

/-- A write keeps the canonical form. -/
theorem Memory.wf_write (m : Memory) (a : Nat) (b : Byte) (ha : a < Config.memSize) (h : m.wf = true) :
    (m.write a b).wf = true := by
  induction m with
  | nil =>
    simp only [Memory.write]
    split
    · exact h
    · exact (Memory.wf_cons _ _ _).mpr ⟨by simp, ha, ‹_›, h⟩
  | cons d t ih =>
    obtain ⟨k, v⟩ := d
    obtain ⟨hlt, hk, hv, ht⟩ := (Memory.wf_cons _ _ _).mp h
    simp only [Memory.write]
    split
    · split
      · exact h
      · refine (Memory.wf_cons _ _ _).mpr ⟨fun c hc => ?_, ha, ‹_›, h⟩
        rcases List.mem_cons.mp hc with rfl | hc
        · assumption
        · exact lt_trans ‹a < k› (hlt c hc)
    · split
      · split
        · exact ht
        · subst a
          exact (Memory.wf_cons _ _ _).mpr ⟨hlt, ha, ‹_›, ht⟩
      · refine (Memory.wf_cons _ _ _).mpr ⟨fun c hc => ?_, hk, hv, ih ht⟩
        rcases Memory.mem_write t a b c hc with hc | ⟨rfl, -⟩
        · exact hlt c hc
        · exact by omega

/-- A read after a write gives the byte written at its address and the old byte at every other. -/
theorem Memory.read_write (m : Memory) (a c : Nat) (b : Byte) (h : m.wf = true) :
    (m.write a b).read c = if c = a then b else m.read c := by
  induction m with
  | nil =>
    by_cases hb : b = Memory.unlisted <;> by_cases hc : c = a
    · simp [Memory.write, Memory.read, hb]
    · simp [Memory.write, Memory.read, hb]
    · simp [Memory.write, Memory.read, hb, hc]
    · simp [Memory.write, Memory.read, hb, hc, Ne.symm hc]
  | cons d t ih =>
    obtain ⟨k, v⟩ := d
    obtain ⟨hlt, -, -, ht⟩ := (Memory.wf_cons _ _ _).mp h
    simp only [Memory.write]
    split
    · have hread : Memory.read ((k, v) :: t) a = Memory.unlisted := by
        refine Memory.read_of_lt _ _ fun c hc => ?_
        rcases List.mem_cons.mp hc with rfl | hc
        · assumption
        · exact lt_trans ‹a < k› (hlt c hc)
      split
      · by_cases hc : c = a
        · subst c; simp [hread, ‹b = _›]
        · simp [hc]
      · by_cases hc : c = a
        · subst c; simp [Memory.read]
        · simp [Memory.read, hc, Ne.symm hc]
    · split
      · subst k
        split
        · by_cases hc : c = a
          · subst c; simp [Memory.read_of_lt t a hlt, ‹b = _›]
          · simp [Memory.read, hc, Ne.symm hc]
        · by_cases hc : c = a
          · subst c; simp [Memory.read]
          · simp [Memory.read, hc, Ne.symm hc]
      · simp only [Memory.read, ih ht]
        by_cases hk : k = c
        · have : c ≠ a := by omega
          simp [hk, this]
        · simp [hk]

/-! ### A run of writes -/

@[simp] theorem Memory.writeRun_nil (m : Memory) (a : Word) : m.writeRun a [] = m := rfl

@[simp] theorem Memory.writeRun_cons (m : Memory) (a : Word) (b : Byte) (bs : List Byte) :
    m.writeRun a (b :: bs) = (m.write a.toNat b).writeRun (add16 a 1) bs := rfl

theorem Memory.wf_writeRun (m : Memory) (a : Word) (bs : List Byte) (h : m.wf = true) :
    (m.writeRun a bs).wf = true := by
  induction bs generalizing m a with
  | nil => exact h
  | cons b bs ih => exact ih _ _ (Memory.wf_write _ _ _ a.isLt h)

/-- The distance from `a` up to `c`, modulo 65536. -/
abbrev offset (a c : Word) : Nat := (sub16 c a).toNat

theorem offset_succ (a c : Word) (h : c ≠ a) : offset a c = offset (add16 a 1) c + 1 := by
  simp only [offset, add16, sub16]
  bv_omega

theorem offset_self (a : Word) : offset a a = 0 := by simp [offset]

theorem offset_succ_self (a : Word) : offset (add16 a 1) a = 65535 := by
  simp only [offset, add16, sub16]
  bv_omega

/-- A run of at most 65536 bytes: each address `offset` bytes above its start holds the byte of that index, and an
address beyond the run's length reads as before. -/
theorem Memory.read_writeRun (m : Memory) (a c : Word) (bs : List Byte) (h : m.wf = true) (hl : bs.length ≤ 65536) :
    (m.writeRun a bs).read c.toNat = if _h : offset a c < bs.length then bs[offset a c] else m.read c.toNat := by
  induction bs generalizing m a with
  | nil => simp
  | cons b bs ih =>
    have hl' : bs.length + 1 ≤ 65536 := by simpa using hl
    rw [Memory.writeRun_cons, ih _ _ (Memory.wf_write _ _ _ a.isLt h) (by omega), Memory.read_write _ _ _ _ h]
    by_cases hca : c = a
    · subst c
      rw [dif_neg (by rw [offset_succ_self]; omega), if_pos rfl, dif_pos (by rw [offset_self]; simp)]
      simp only [offset_self, List.getElem_cons_zero]
    · have hne : c.toNat ≠ a.toNat := fun e => hca (BitVec.eq_of_toNat_eq e)
      have hs := offset_succ a c hca
      rw [if_neg hne]
      by_cases hlt : offset (add16 a 1) c < bs.length
      · rw [dif_pos hlt, dif_pos (by simp only [List.length_cons]; omega)]
        simp only [hs, List.getElem_cons_succ]
      · rw [dif_neg hlt, dif_neg (by simp only [List.length_cons]; omega)]

/-- A run of any length: the byte of index `k` is read back where no later byte of the run falls on its address. -/
theorem Memory.read_writeRun_at (m : Memory) (a : Word) (bs : List Byte) (k : Nat) (h : m.wf = true)
    (hk : k < bs.length) (hl : bs.length ≤ k + 65536) :
    (m.writeRun a bs).read (add16 a (BitVec.ofNat 16 k)).toNat = bs[k] := by
  induction bs generalizing m a k with
  | nil => simp at hk
  | cons b bs ih =>
    cases k with
    | zero =>
      have hl' : bs.length ≤ 65535 := by simp only [List.length_cons] at hl; omega
      have ha : add16 a (BitVec.ofNat 16 0) = a := by simp [add16]
      rw [Memory.writeRun_cons, ha, Memory.read_writeRun _ _ _ _ (Memory.wf_write _ _ _ a.isLt h) (by omega),
        dif_neg (by rw [offset_succ_self]; omega), Memory.read_write _ _ _ _ h, if_pos rfl]
      rfl
    | succ k =>
      have ha : add16 a (BitVec.ofNat 16 (k + 1)) = add16 (add16 a 1) (BitVec.ofNat 16 k) := by
        apply BitVec.eq_of_toNat_eq
        simp only [add16, BitVec.toNat_add, BitVec.toNat_ofNat]
        have h1 : (1 : Word).toNat = 1 := rfl
        omega
      simp only [List.length_cons] at hk hl
      rw [Memory.writeRun_cons, ha, ih _ _ k (Memory.wf_write _ _ _ a.isLt h) (by omega) (by omega)]
      rfl

/-- An address that no byte of the run falls on reads as before. -/
theorem Memory.read_writeRun_of_not_mem (m : Memory) (a c : Word) (bs : List Byte) (h : m.wf = true)
    (hc : ∀ j < bs.length, c ≠ add16 a (BitVec.ofNat 16 j)) : (m.writeRun a bs).read c.toNat = m.read c.toNat := by
  induction bs generalizing m a with
  | nil => rfl
  | cons b bs ih =>
    have h0 : c ≠ a := by simpa [add16] using hc 0 (by simp)
    rw [Memory.writeRun_cons, ih _ _ (Memory.wf_write _ _ _ a.isLt h), Memory.read_write _ _ _ _ h,
      if_neg fun e => h0 (BitVec.eq_of_toNat_eq e)]
    intro j hj
    have hs := hc (j + 1) (by simp only [List.length_cons]; omega)
    intro e
    apply hs
    rw [e]
    apply BitVec.eq_of_toNat_eq
    simp only [add16, BitVec.toNat_add, BitVec.toNat_ofNat]
    have h1 : (1 : Word).toNat = 1 := rfl
    omega

/-! ### The same, said of states -/

theorem State.readByte_rawWrites_at (s : State) (a : Word) (bs : List Byte) (k : Nat) (h : s.mem.wf = true)
    (hk : k < bs.length) (hl : bs.length ≤ k + 65536) :
    (s.rawWrites a bs).readByte (add16 a (BitVec.ofNat 16 k)) = bs[k] :=
  Memory.read_writeRun_at _ _ _ _ h hk hl

theorem State.readByte_rawWrites_of_not_mem (s : State) (a c : Word) (bs : List Byte) (h : s.mem.wf = true)
    (hc : ∀ j < bs.length, c ≠ add16 a (BitVec.ofNat 16 j)) : (s.rawWrites a bs).readByte c = s.readByte c :=
  Memory.read_writeRun_of_not_mem _ _ _ _ h hc

theorem State.length_readBytes (s : State) (a : Word) (n : Nat) : (s.readBytes a n).length = n := by
  simp [State.readBytes]

theorem State.readBytes_advance (s : State) (m : Mnemonic) (a : Word) (n : Nat) :
    (s.advance m).readBytes a n = s.readBytes a n := rfl

theorem State.getElem_readBytes (s : State) (a : Word) (n k : Nat) (h : k < (s.readBytes a n).length) :
    (s.readBytes a n)[k] = s.readByte (add16 a (BitVec.ofNat 16 k)) := by
  simp [State.readBytes]

/-- A byte within a run read, the index taken as the decoder takes it. -/
theorem State.getD_readBytes (s : State) (a : Word) (n k : Nat) (h : k < n) :
    (s.readBytes a n).getD k 0 = s.readByte (add16 a (BitVec.ofNat 16 k)) := by
  simp [State.readBytes, h]

theorem State.readByte_rawWrite (s : State) (a c : Word) (b : Byte) (h : s.mem.wf = true) :
    (s.rawWrite a b).readByte c = if c = a then b else s.readByte c := by
  simp only [State.readByte, State.rawWrite_mem, Memory.read_write _ _ _ _ h]
  by_cases hc : c = a
  · simp [hc]
  · rw [if_neg hc, if_neg fun e => hc (BitVec.eq_of_toNat_eq e)]

theorem State.readByte_rawWrites (s : State) (a c : Word) (bs : List Byte) (h : s.mem.wf = true)
    (hl : bs.length ≤ 65536) :
    (s.rawWrites a bs).readByte c = if _h : offset a c < bs.length then bs[offset a c] else s.readByte c := by
  simp only [State.readByte, State.rawWrites_mem]
  exact Memory.read_writeRun _ _ _ _ h hl

theorem State.wf_rawWrite (s : State) (a : Word) (b : Byte) (h : s.mem.wf = true) : (s.rawWrite a b).mem.wf = true :=
  Memory.wf_write _ _ _ a.isLt h

theorem State.wf_rawWrites (s : State) (a : Word) (bs : List Byte) (h : s.mem.wf = true) :
    (s.rawWrites a bs).mem.wf = true := Memory.wf_writeRun _ _ _ h

theorem State.wf_storeBytes (s : State) (a v : Word) (h : s.mem.wf = true) : (s.storeBytes a v).mem.wf = true :=
  State.wf_rawWrite _ _ _ (State.wf_rawWrite _ _ _ h)

theorem add16_one_ne (a : Word) : add16 a 1 ≠ a := by
  simp only [add16]
  bv_omega

/-- What an engine store's two byte writes leave at every address (R34). -/
theorem State.readByte_storeBytes (s : State) (a v c : Word) (h : s.mem.wf = true) :
    (s.storeBytes a v).readByte c =
      if c = add16 a 1 then highByte v else if c = a then lowByte v else s.readByte c := by
  rw [State.storeBytes, State.readByte_rawWrite _ _ _ _ (State.wf_rawWrite _ _ _ h), State.readByte_rawWrite _ _ _ _ h]
  rfl

/-- Two memories in canonical form that read alike are equal. -/
theorem Memory.eq_of_read (m n : Memory) (hm : m.wf = true) (hn : n.wf = true) (h : ∀ a, m.read a = n.read a) :
    m = n := by
  induction m generalizing n with
  | nil =>
    cases n with
    | nil => rfl
    | cons d t =>
      obtain ⟨k, v⟩ := d
      obtain ⟨-, -, hv, -⟩ := (Memory.wf_cons _ _ _).mp hn
      exact absurd (h k).symm (by simpa [Memory.read] using hv)
  | cons c m ih =>
    obtain ⟨k, v⟩ := c
    obtain ⟨hlt, -, hv, hm'⟩ := (Memory.wf_cons _ _ _).mp hm
    cases n with
    | nil => exact absurd (h k) (by simpa [Memory.read] using hv)
    | cons d n =>
      obtain ⟨j, w⟩ := d
      obtain ⟨hlt', -, hw, hn'⟩ := (Memory.wf_cons _ _ _).mp hn
      have hkj : k = j := by
        rcases lt_trichotomy k j with hk | hk | hk
        · have := h k
          rw [Memory.read_of_lt ((j, w) :: n) k (by
            intro c hc
            rcases List.mem_cons.mp hc with rfl | hc
            · exact hk
            · exact lt_trans hk (hlt' c hc))] at this
          exact absurd this (by simpa [Memory.read] using hv)
        · exact hk
        · have := h j
          rw [Memory.read_of_lt ((k, v) :: m) j (by
            intro c hc
            rcases List.mem_cons.mp hc with rfl | hc
            · exact hk
            · exact lt_trans hk (hlt c hc))] at this
          exact absurd this.symm (by simpa [Memory.read] using hw)
      subst j
      have hvw : v = w := by simpa [Memory.read] using h k
      subst w
      have : m = n := ih n hm' hn' fun a => by
        by_cases hak : k = a
        · subst a
          rw [Memory.read_of_lt m k hlt, Memory.read_of_lt n k hlt']
        · simpa [Memory.read, hak] using h a
      rw [this]

end Sys2Proof.Machine
end

