-- ==== Sys2Proof/Laws/Console.lean ====
section
/-! SUPPORT. Everything the Console Text Model can do. -/

namespace Sys2Proof.Machine

/-- A scroll past the last row (R165). -/
theorem State.consoleScroll_of_past (s : State) (h : s.curY = Config.displayRows) :
    s.consoleScroll =
      { s.rawWrites (cellAddr 0 0) s.scrolledDisplay with curY := Config.displayRows - 1 } := by
  rw [State.consoleScroll, if_pos h]

/-- No scroll within the grid. -/
theorem State.consoleScroll_of_not_past (s : State) (h : s.curY ≠ Config.displayRows) : s.consoleScroll = s := by
  rw [State.consoleScroll, if_neg h]

/-- A scroll is some run of writes from the first cell, and the row. -/
theorem State.consoleScroll_cases (s : State) :
    s.consoleScroll = s ∨
      ∃ bs, s.consoleScroll = { s.rawWrites (cellAddr 0 0) bs with curY := Config.displayRows - 1 } := by
  by_cases h : s.curY = Config.displayRows
  · exact .inr ⟨_, State.consoleScroll_of_past s h⟩
  · exact .inl (State.consoleScroll_of_not_past s h)

/-- A scroll changes memory and the cursor's row only. -/
theorem State.consoleScroll_shape (s : State) : ∃ m y, s.consoleScroll = { s with mem := m, curY := y } := by
  rcases State.consoleScroll_cases s with h | ⟨bs, h⟩
  · exact ⟨s.mem, s.curY, h⟩
  · exact ⟨_, _, h⟩

/-- `put_char` changes memory and the cursor only. -/
theorem State.putChar_shape (s : State) (c : Byte) :
    ∃ m x y, s.putChar c = { s with mem := m, curX := x, curY := y } := by
  suffices h : ∀ t : State, (∃ m x y, t = { s with mem := m, curX := x, curY := y }) →
      ∃ m x y, t.consoleScroll = { s with mem := m, curX := x, curY := y } by
    simp only [State.putChar]
    split_ifs
    · exact h _ ⟨s.mem, 0, s.curY + 1, rfl⟩
    · exact h _ ⟨s.mem, 0, s.curY, rfl⟩
    · simp only [State.consoleBackspace]
      split_ifs
      · exact h _ ⟨s.mem, s.curX - 1, s.curY, rfl⟩
      · exact h _ ⟨s.mem, _, s.curY - 1, rfl⟩
      · exact h _ ⟨s.mem, s.curX, s.curY, rfl⟩
    · simp only [State.consoleWrite]
      split_ifs
      · exact h _ ⟨_, 0, s.curY + 1, rfl⟩
      · exact h _ ⟨_, s.curX + 1, s.curY, rfl⟩
  rintro t ⟨m, x, y, rfl⟩
  obtain ⟨m', y', h⟩ := State.consoleScroll_shape { s with mem := m, curX := x, curY := y }
  exact ⟨m', x, y', h⟩

theorem State.putChar_eq (s : State) (c : Byte) :
    s.putChar c = { s with mem := (s.putChar c).mem, curX := (s.putChar c).curX, curY := (s.putChar c).curY } := by
  obtain ⟨m, x, y, h⟩ := State.putChar_shape s c
  rw [h]

@[simp] theorem State.putChar_regs (s : State) (c : Byte) : (s.putChar c).regs = s.regs := by
  rw [State.putChar_eq]

@[simp] theorem State.putChar_pc (s : State) (c : Byte) : (s.putChar c).pc = s.pc := by
  rw [State.putChar_eq]

@[simp] theorem State.putChar_sp (s : State) (c : Byte) : (s.putChar c).sp = s.sp := by
  rw [State.putChar_eq]

@[simp] theorem State.putChar_zeroFlag (s : State) (c : Byte) : (s.putChar c).zeroFlag = s.zeroFlag := by
  rw [State.putChar_eq]

@[simp] theorem State.putChar_running (s : State) (c : Byte) : (s.putChar c).running = s.running := by
  rw [State.putChar_eq]

@[simp] theorem State.putChar_interactive (s : State) (c : Byte) : (s.putChar c).interactive = s.interactive := by
  rw [State.putChar_eq]

@[simp] theorem State.putChar_inq (s : State) (c : Byte) : (s.putChar c).inq = s.inq := by
  rw [State.putChar_eq]

@[simp] theorem State.putChar_store (s : State) (c : Byte) : (s.putChar c).store = s.store := by
  rw [State.putChar_eq]

@[simp] theorem State.putChar_hin (s : State) (c : Byte) : (s.putChar c).hin = s.hin := by
  rw [State.putChar_eq]

@[simp] theorem State.putChar_hinEnded (s : State) (c : Byte) : (s.putChar c).hinEnded = s.hinEnded := by
  rw [State.putChar_eq]

@[simp] theorem State.putChar_hout (s : State) (c : Byte) : (s.putChar c).hout = s.hout := by
  rw [State.putChar_eq]

@[simp] theorem State.putChar_diag (s : State) (c : Byte) : (s.putChar c).diag = s.diag := by
  rw [State.putChar_eq]

@[simp] theorem State.putChar_outcome (s : State) (c : Byte) : (s.putChar c).outcome = s.outcome := by
  rw [State.putChar_eq]

@[simp] theorem State.putChar_loaded (s : State) (c : Byte) : (s.putChar c).loaded = s.loaded := by
  rw [State.putChar_eq]

@[simp] theorem State.putChar_diskDraws (s : State) (c : Byte) : (s.putChar c).diskDraws = s.diskDraws := by
  rw [State.putChar_eq]

theorem State.wf_consoleScroll (s : State) (h : s.mem.wf = true) : s.consoleScroll.mem.wf = true := by
  rcases State.consoleScroll_cases s with hs | ⟨bs, hs⟩
  · rw [hs]; exact h
  · rw [hs]; exact State.wf_rawWrites s (cellAddr 0 0) bs h

/-- `put_char` keeps memory in canonical form. -/
theorem State.wf_putChar (s : State) (c : Byte) (h : s.mem.wf = true) : (s.putChar c).mem.wf = true := by
  simp only [State.putChar]
  apply State.wf_consoleScroll
  split_ifs
  · exact h
  · exact h
  · simp only [State.consoleBackspace]; split_ifs <;> exact h
  · simp only [State.consoleWrite]; split_ifs <;> exact State.wf_rawWrite _ _ _ h

theorem State.consoleScroll_curX (s : State) : s.consoleScroll.curX = s.curX := by
  obtain ⟨m, y, h⟩ := State.consoleScroll_shape s
  rw [h]

theorem State.consoleScroll_curY_of_past (s : State) (h : s.curY = Config.displayRows) : s.consoleScroll.curY = 29 :=
  congrArg State.curY (State.consoleScroll_of_past s h)

theorem State.consoleScroll_curY (s : State) (h : s.curY ≤ 30) : s.consoleScroll.curY < 30 := by
  by_cases hy : s.curY = Config.displayRows
  · rw [State.consoleScroll_of_past s hy]; exact Nat.lt_succ_self 29
  · rw [State.consoleScroll_of_not_past s hy]
    have : s.curY ≠ 30 := hy
    omega

/-- `put_char` keeps the cursor in the grid (R19, R165). -/
theorem State.cursor_putChar (s : State) (c : Byte) (hx : s.curX < 80) (hy : s.curY < 30) :
    (s.putChar c).curX < 80 ∧ (s.putChar c).curY < 30 := by
  simp only [State.putChar]
  rw [State.consoleScroll_curX]
  suffices h : ∀ t : State, t.curX < 80 → t.curY ≤ 30 → t.curX < 80 ∧ t.consoleScroll.curY < 30 by
    split_ifs
    · exact h _ (by simp [State.consoleNewline]) (by simp only [State.consoleNewline]; omega)
    · exact h _ (by simp [State.consoleReturn]) (by simp only [State.consoleReturn]; omega)
    · simp only [State.consoleBackspace, Config.displayCols]
      split_ifs
      · exact h _ (by dsimp only; omega) (by dsimp only; omega)
      · exact h _ (by simp) (by dsimp only; omega)
      · exact h _ hx (by omega)
    · simp only [State.consoleWrite, Config.displayCols]
      split_ifs
      · exact h _ (by simp) (by dsimp only; omega)
      · exact h _ (by dsimp only; omega) (by simp only [State.rawWrite_curY]; omega)
  exact fun t htx hty => ⟨htx, State.consoleScroll_curY _ hty⟩

/-- Cells of the grid have addresses in the window, and different cells different addresses (R41). -/
theorem cellAddr_toNat (y x : Nat) (hy : y < 30) (hx : x < 80) : (cellAddr y x).toNat = 0xF000 + 80 * y + x := by
  simp only [cellAddr, Config.displayBase, Config.displayCols, BitVec.toNat_ofNat]
  omega

theorem cellAddr_eq_add16 (y x : Nat) (hy : y < 30) (hx : x < 80) :
    cellAddr y x = add16 0xF000#16 (BitVec.ofNat 16 (80 * y + x)) := by
  apply BitVec.eq_of_toNat_eq
  rw [cellAddr_toNat y x hy hx]
  simp [add16, BitVec.toNat_add]
  omega

theorem cellAddr_inj (y x y' x' : Nat) (hy : y < 30) (hx : x < 80) (hy' : y' < 30) (hx' : x' < 80)
    (h : cellAddr y x = cellAddr y' x') : y = y' ∧ x = x' := by
  have := congrArg BitVec.toNat h
  rw [cellAddr_toNat y x hy hx, cellAddr_toNat y' x' hy' hx'] at this
  omega

theorem cellAddr_zero : cellAddr 0 0 = 0xF000#16 := by
  apply BitVec.eq_of_toNat_eq
  rw [cellAddr_toNat 0 0 (by omega) (by omega)]
  rfl

/-! ### What a scroll leaves, byte by byte -/

theorem State.scrolledDisplay_eq (s : State) :
    s.scrolledDisplay = s.readBytes (cellAddr 1 0) (Config.displayCols * (Config.displayRows - 1)) ++
      List.replicate Config.displayCols Config.consoleClearByte := by
  unfold State.scrolledDisplay
  rfl

theorem length_movedRows : Config.displayCols * (Config.displayRows - 1) = 2320 := by norm_num

theorem State.length_scrolledDisplay (s : State) : s.scrolledDisplay.length = 2400 := by
  rw [State.scrolledDisplay_eq, length_movedRows]
  refine (List.length_append ..).trans ?_
  exact (congrArg₂ (· + ·) (State.length_readBytes ..) (List.length_replicate ..)).trans (by norm_num)

/-- Rows 1 to 29 move up by one (R165). -/
theorem State.scrolledDisplay_moved (s : State) (y x : Nat) (hy : y < 29) (hx : x < 80)
    (h : 80 * y + x < s.scrolledDisplay.length) :
    s.scrolledDisplay[80 * y + x] = s.readByte (cellAddr (y + 1) x) := by
  have hl : 80 * y + x < (s.readBytes (cellAddr 1 0) 2320).length := by
    rw [State.length_readBytes]
    omega
  simp only [State.scrolledDisplay_eq, length_movedRows]
  rw [List.getElem_append_left hl, State.getElem_readBytes]
  congr 1
  rw [cellAddr_eq_add16 1 0 (by omega) (by omega), cellAddr_eq_add16 (y + 1) x (by omega) hx]
  apply BitVec.eq_of_toNat_eq
  simp [add16, BitVec.toNat_add]
  omega

/-- The new bottom row is cleared (R165). -/
theorem State.scrolledDisplay_cleared (s : State) (x : Nat) (h : 2320 + x < s.scrolledDisplay.length) :
    s.scrolledDisplay[2320 + x] = Config.consoleClearByte := by
  simp only [State.scrolledDisplay_eq, length_movedRows]
  rw [List.getElem_append_right (by rw [State.length_readBytes]; omega), List.getElem_replicate]

theorem State.readByte_setCurY (s : State) (y : Nat) (a : Word) :
    ({ s with curY := y } : State).readByte a = s.readByte a := rfl

theorem State.readByte_consoleScroll_of_past (s : State) (h : s.curY = Config.displayRows) (a : Word) :
    s.consoleScroll.readByte a = (s.rawWrites (cellAddr 0 0) s.scrolledDisplay).readByte a := by
  rw [State.consoleScroll_of_past s h]
  exact State.readByte_setCurY (s.rawWrites (cellAddr 0 0) s.scrolledDisplay) _ a

/-- The cell `k` places into the window, after a scroll. -/
theorem State.readByte_consoleScroll_cell (s : State) (h : s.curY = Config.displayRows) (hw : s.mem.wf = true) (k : Nat)
    (hk : k < s.scrolledDisplay.length) :
    s.consoleScroll.readByte (add16 0xF000#16 (BitVec.ofNat 16 k)) = s.scrolledDisplay[k] := by
  have hl := State.length_scrolledDisplay s
  rw [State.readByte_consoleScroll_of_past s h, ← cellAddr_zero]
  exact State.readByte_rawWrites_at s (cellAddr 0 0) s.scrolledDisplay k hw hk (by omega)

/-- A scroll writes nothing outside the display window. -/
theorem State.readByte_consoleScroll_outside (s : State) (a : Word) (hw : s.mem.wf = true)
    (ha : ∀ j < 2400, a ≠ add16 0xF000#16 (BitVec.ofNat 16 j)) : s.consoleScroll.readByte a = s.readByte a := by
  by_cases h : s.curY = Config.displayRows
  · rw [State.readByte_consoleScroll_of_past s h]
    apply State.readByte_rawWrites_of_not_mem s _ _ _ hw
    rw [State.length_scrolledDisplay, cellAddr_zero]
    exact ha
  · rw [State.consoleScroll_of_not_past s h]

/-! ### What `put_char` leaves, byte by byte -/

theorem State.putChar_newline (s : State) : s.putChar 0x0A#8 = s.consoleNewline.consoleScroll := by
  rw [State.putChar, if_pos rfl]

theorem State.putChar_return (s : State) : s.putChar 0x0D#8 = s.consoleReturn.consoleScroll := by
  rw [State.putChar, if_neg (by decide), if_pos rfl]

theorem State.putChar_backspace (s : State) : s.putChar 0x08#8 = s.consoleBackspace.consoleScroll := by
  rw [State.putChar, if_neg (by decide), if_neg (by decide), if_pos rfl]

theorem State.putChar_other (s : State) (c : Byte) (h1 : c ≠ 0x0A#8) (h2 : c ≠ 0x0D#8) (h3 : c ≠ 0x08#8) :
    s.putChar c = (s.consoleWrite c).consoleScroll := by
  rw [State.putChar, if_neg h1, if_neg h2, if_neg h3]

/-- The cell written and no other byte (R163). -/
theorem State.readByte_consoleWrite (s : State) (c : Byte) (a : Word) (h : s.mem.wf = true) :
    (s.consoleWrite c).readByte a = if a = cellAddr s.curY s.curX then c else s.readByte a := by
  simp only [State.consoleWrite]
  split_ifs <;> simpa [State.readByte, *] using State.readByte_rawWrite s (cellAddr s.curY s.curX) a c h

/-- `put_char` writes nothing outside the display window (R163, R165). -/
theorem State.readByte_putChar_outside (s : State) (c : Byte) (a : Word) (hw : s.mem.wf = true) (hx : s.curX < 80)
    (hy : s.curY < 30) (ha : ∀ j < 2400, a ≠ add16 0xF000#16 (BitVec.ofNat 16 j)) :
    (s.putChar c).readByte a = s.readByte a := by
  simp only [State.putChar]
  split_ifs
  · exact State.readByte_consoleScroll_outside s.consoleNewline a hw ha
  · exact State.readByte_consoleScroll_outside s.consoleReturn a hw ha
  · rw [State.readByte_consoleScroll_outside s.consoleBackspace a
      (by simp only [State.consoleBackspace]; split_ifs <;> exact hw) ha]
    simp only [State.consoleBackspace]
    split_ifs <;> rfl
  · rw [State.readByte_consoleScroll_outside (s.consoleWrite c) a
      (by simp only [State.consoleWrite]; split_ifs <;> exact State.wf_rawWrite _ _ _ hw) ha,
      State.readByte_consoleWrite _ _ _ hw, if_neg]
    rw [cellAddr_eq_add16 _ _ hy hx]
    exact ha _ (by omega)

/-! ### `put_char` does not look at `pc` and the outcome -/

theorem State.scrolledDisplay_advance (s : State) (m : Mnemonic) :
    (s.advance m).scrolledDisplay = s.scrolledDisplay := by
  rw [State.scrolledDisplay_eq, State.scrolledDisplay_eq, State.readBytes_advance]

theorem State.rawWrites_setCurY_advance (s : State) (m : Mnemonic) (a : Word) (bs : List Byte) (y : Nat) :
    { (s.advance m).rawWrites a bs with curY := y } = State.advance { s.rawWrites a bs with curY := y } m := rfl

theorem State.consoleScroll_advance (s : State) (m : Mnemonic) :
    (s.advance m).consoleScroll = s.consoleScroll.advance m := by
  by_cases h : s.curY = Config.displayRows
  · rw [State.consoleScroll_of_past s h, State.consoleScroll_of_past (s.advance m) h,
      State.scrolledDisplay_advance, State.rawWrites_setCurY_advance]
  · rw [State.consoleScroll_of_not_past s h, State.consoleScroll_of_not_past (s.advance m) h]

theorem State.putChar_advance (s : State) (m : Mnemonic) (c : Byte) :
    (s.advance m).putChar c = (s.putChar c).advance m := by
  simp only [State.putChar, ← State.consoleScroll_advance]
  congr 1
  by_cases h1 : c = 0x0A#8
  · rw [if_pos h1, if_pos h1]; rfl
  · rw [if_neg h1, if_neg h1]
    by_cases h2 : c = 0x0D#8
    · rw [if_pos h2, if_pos h2]; rfl
    · rw [if_neg h2, if_neg h2]
      by_cases h3 : c = 0x08#8
      · rw [if_pos h3, if_pos h3]
        by_cases hx : 0 < s.curX
        · rw [State.consoleBackspace, State.consoleBackspace, if_pos hx, if_pos (by exact hx)]; rfl
        · by_cases hy : 0 < s.curY
          · rw [State.consoleBackspace, State.consoleBackspace, if_neg hx, if_neg (by exact hx), if_pos hy,
              if_pos (by exact hy)]
            rfl
          · rw [State.consoleBackspace, State.consoleBackspace, if_neg hx, if_neg (by exact hx), if_neg hy,
              if_neg (by exact hy)]
      · rw [if_neg h3, if_neg h3]
        by_cases hx : s.curX + 1 = Config.displayCols
        · rw [State.consoleWrite, State.consoleWrite, if_pos hx, if_pos (by exact hx)]; rfl
        · rw [State.consoleWrite, State.consoleWrite, if_neg hx, if_neg (by exact hx)]; rfl

end Sys2Proof.Machine
end

