-- ==== Sys2Proof/Laws/Operands.lean ====
section
/-! SUPPORT. What the resolution of register operands gives (R69), and the register laws (R10). -/

namespace Sys2Proof.Machine

@[simp] theorem regOutOfRange_eq (m : Mnemonic) (s : State) : regOutOfRange m s = .next (s.advance m) := rfl

@[simp] theorem withReg_gpr (m : Mnemonic) (r : Fin 8) (s : State) (body : Fin 8 → State → Result) :
    withReg m (.gpr r) s body = body r (s.advance m) := rfl

@[simp] theorem withReg_outOfRange (m : Mnemonic) (b : Byte) (s : State) (body : Fin 8 → State → Result) :
    withReg m (.outOfRange b) s body = .next (s.advance m) := rfl

@[simp] theorem withRegs_gpr (m : Mnemonic) (r q : Fin 8) (s : State) (body : Fin 8 → Fin 8 → State → Result) :
    withRegs m (.gpr r) (.gpr q) s body = body r q (s.advance m) := rfl

@[simp] theorem withRegs_outOfRange_left (m : Mnemonic) (b : Byte) (q : RegOperand) (s : State)
    (body : Fin 8 → Fin 8 → State → Result) : withRegs m (.outOfRange b) q s body = .next (s.advance m) := rfl

@[simp] theorem withRegs_outOfRange_right (m : Mnemonic) (r : RegOperand) (b : Byte) (s : State)
    (body : Fin 8 → Fin 8 → State → Result) : withRegs m r (.outOfRange b) s body = .next (s.advance m) := by
  cases r <;> rfl

/-- `x[r]` after `x[r] <- v`. -/
@[simp] theorem State.reg_setReg_self (s : State) (r : Fin 8) (v : Word) : (s.setReg r v).reg r = v := by
  simp [State.reg, State.setReg]

/-- Another register after `x[r] <- v`. -/
theorem State.reg_setReg_ne (s : State) (r q : Fin 8) (v : Word) (h : q ≠ r) : (s.setReg r v).reg q = s.reg q := by
  have h' : r.val ≠ q.val := fun e => h (Fin.ext e.symm)
  simp [State.reg, State.setReg, Vector.getElem_set_ne _ _ h']

@[simp] theorem State.reg_advance (s : State) (m : Mnemonic) (r : Fin 8) : (s.advance m).reg r = s.reg r := rfl

@[simp] theorem State.readByte_advance (s : State) (m : Mnemonic) (a : Word) :
    (s.advance m).readByte a = s.readByte a := rfl

@[simp] theorem State.readByte_setReg (s : State) (r : Fin 8) (v a : Word) :
    (s.setReg r v).readByte a = s.readByte a := rfl

/-- A word read is its low byte plus 256 times its high byte (R30, R31). -/
theorem wordOfBytes_toNat (lo hi : Byte) : (wordOfBytes lo hi).toNat = lo.toNat + 256 * hi.toNat := by
  simp only [wordOfBytes, BitVec.toNat_append]
  rw [← Nat.shiftLeft_add_eq_or_of_lt lo.isLt, Nat.shiftLeft_eq]
  omega

theorem wordOfBytes_low_high (v : Word) : wordOfBytes (lowByte v) (highByte v) = v := by
  apply BitVec.eq_of_toNat_eq
  rw [wordOfBytes_toNat]
  simp only [lowByte, highByte, BitVec.extractLsb'_toNat, Nat.shiftRight_eq_div_pow]
  have := v.isLt
  omega

theorem lowByte_wordOfBytes (lo hi : Byte) : lowByte (wordOfBytes lo hi) = lo := by
  apply BitVec.eq_of_toNat_eq
  simp only [lowByte, BitVec.extractLsb'_toNat, wordOfBytes_toNat, Nat.shiftRight_eq_div_pow]
  have := lo.isLt
  omega

theorem highByte_wordOfBytes (lo hi : Byte) : highByte (wordOfBytes lo hi) = hi := by
  apply BitVec.eq_of_toNat_eq
  simp only [highByte, BitVec.extractLsb'_toNat, wordOfBytes_toNat, Nat.shiftRight_eq_div_pow]
  have := lo.isLt
  have := hi.isLt
  omega

theorem zext16_toNat (b : Byte) : (zext16 b).toNat = b.toNat := by
  simp only [zext16, BitVec.toNat_setWidth]
  have := b.isLt
  omega

end Sys2Proof.Machine
end

