-- ==== Sys2Proof/Laws/Decode.lean ====
section
/-! SUPPORT. The small laws of the encoding tables and of the decoder. -/

namespace Sys2Proof

open Sys2Proof.Machine (wordOfBytes_low_high lowByte_wordOfBytes highByte_wordOfBytes)

/-- The whole byte is the index (R64). -/
theorem regOperandOf_eq (b : Byte) :
    regOperandOf b = if h : b.toNat < 8 then .gpr ⟨b.toNat, h⟩ else .outOfRange b := by
  have e : b.toNat % 2 ^ Config.regOperandField.indexBits = b.toNat := Nat.mod_eq_of_lt b.isLt
  simp only [regOperandOf, e]

/-- A register operand is its one byte (R62). -/
theorem regBytes_eq (r : RegOperand) : regBytes r = [regByte r] := rfl

/-- The operand byte of a well-formed register operand reads back as the operand (R64). -/
theorem regOperandOf_regByte (r : RegOperand) (h : r.wellFormed = true) : regOperandOf (regByte r) = r := by
  cases r with
  | gpr r =>
    have := r.isLt
    have e : (BitVec.ofNat 8 r.val).toNat = r.val := by simp; omega
    simp only [regOperandOf_eq, regByte, e, this, dite_true]
  | outOfRange b =>
    have h8 : ¬ b.toNat < 8 := by simpa [RegOperand.wellFormed] using h
    simp [regOperandOf_eq, regByte, h8]

/-- Every operand the decoder makes is well formed (R69). -/
theorem wellFormed_regOperandOf (b : Byte) : (regOperandOf b).wellFormed = true := by
  rw [regOperandOf_eq]
  split_ifs with h
  · rfl
  · simpa [RegOperand.wellFormed] using h

theorem regByte_regOperandOf (b : Byte) : regByte (regOperandOf b) = b := by
  rw [regOperandOf_eq]
  split_ifs with h
  · simp [regByte]
  · rfl

/-- An opcode byte is decoded to its own mnemonic, so the 18 values are distinct (R67). -/
theorem mnemonicOf?_opc (m : Mnemonic) : mnemonicOf? (Config.opc m) = some m := by cases m <;> decide

theorem opc_of_mnemonicOf? (b : Byte) (m : Mnemonic) (h : mnemonicOf? b = some m) : Config.opc m = b := by
  simpa using List.find?_some h

/-- Decoding a legal opcode byte with enough bytes after it. -/
theorem decode_opc (m : Mnemonic) (rest : List Byte) (h : m.length - 1 ≤ rest.length) :
    decode (Config.opc m :: rest) = .ok (m.build rest, rest.drop (m.length - 1)) := by
  simp only [decode, mnemonicOf?_opc]
  rw [if_neg (by omega)]

/-- What the decoder builds belongs to the mnemonic decoded. -/
theorem mnemonic_build (m : Mnemonic) (operands : List Byte) : (m.build operands).mnemonic = m := by cases m <;> rfl

/-- Bytes beyond the mnemonic's format are not looked at (R62). -/
theorem build_of_getD (m : Mnemonic) (xs ys : List Byte) (h : ∀ k < m.length - 1, xs.getD k 0 = ys.getD k 0) :
    m.build xs = m.build ys := by
  cases m <;>
    simp (disch := decide) only [Mnemonic.build, regAt, wordAt, Mnemonic.format, Format.regs, Config.regOperandField, h]

end Sys2Proof
end

