-- ==== Sys2Proof/Laws/Disk.lean ====
section
/-! SUPPORT. Everything the Disk Controller, the dispatcher, an engine store and a push can do. -/

namespace Sys2Proof.Machine

/-! ### One command -/

/-- A command changes memory and the store only. -/
theorem State.diskCommand_eq (s : State) (fails : Bool) (cmd : Byte) (namePtr dataPtr size : Word) :
    s.diskCommand fails cmd namePtr dataPtr size =
      { s with
        mem := (s.diskCommand fails cmd namePtr dataPtr size).mem
        store := (s.diskCommand fails cmd namePtr dataPtr size).store } := by
  simp only [State.diskCommand, State.diskList, State.diskRead, State.diskWrite]
  split_ifs
  · rfl
  · rfl
  · split <;> rfl
  · rfl
  · rfl

@[simp] theorem State.diskCommand_regs (s : State) (fails : Bool) (cmd : Byte) (np dp sz : Word) : (s.diskCommand fails cmd np dp sz).regs = s.regs := by
  rw [State.diskCommand_eq]

@[simp] theorem State.diskCommand_pc (s : State) (fails : Bool) (cmd : Byte) (np dp sz : Word) : (s.diskCommand fails cmd np dp sz).pc = s.pc := by
  rw [State.diskCommand_eq]

@[simp] theorem State.diskCommand_sp (s : State) (fails : Bool) (cmd : Byte) (np dp sz : Word) : (s.diskCommand fails cmd np dp sz).sp = s.sp := by
  rw [State.diskCommand_eq]

@[simp] theorem State.diskCommand_zeroFlag (s : State) (fails : Bool) (cmd : Byte) (np dp sz : Word) : (s.diskCommand fails cmd np dp sz).zeroFlag = s.zeroFlag := by
  rw [State.diskCommand_eq]

@[simp] theorem State.diskCommand_running (s : State) (fails : Bool) (cmd : Byte) (np dp sz : Word) : (s.diskCommand fails cmd np dp sz).running = s.running := by
  rw [State.diskCommand_eq]

@[simp] theorem State.diskCommand_interactive (s : State) (fails : Bool) (cmd : Byte) (np dp sz : Word) : (s.diskCommand fails cmd np dp sz).interactive = s.interactive := by
  rw [State.diskCommand_eq]

@[simp] theorem State.diskCommand_inq (s : State) (fails : Bool) (cmd : Byte) (np dp sz : Word) : (s.diskCommand fails cmd np dp sz).inq = s.inq := by
  rw [State.diskCommand_eq]

@[simp] theorem State.diskCommand_curX (s : State) (fails : Bool) (cmd : Byte) (np dp sz : Word) : (s.diskCommand fails cmd np dp sz).curX = s.curX := by
  rw [State.diskCommand_eq]

@[simp] theorem State.diskCommand_curY (s : State) (fails : Bool) (cmd : Byte) (np dp sz : Word) : (s.diskCommand fails cmd np dp sz).curY = s.curY := by
  rw [State.diskCommand_eq]

@[simp] theorem State.diskCommand_hin (s : State) (fails : Bool) (cmd : Byte) (np dp sz : Word) : (s.diskCommand fails cmd np dp sz).hin = s.hin := by
  rw [State.diskCommand_eq]

@[simp] theorem State.diskCommand_hinEnded (s : State) (fails : Bool) (cmd : Byte) (np dp sz : Word) : (s.diskCommand fails cmd np dp sz).hinEnded = s.hinEnded := by
  rw [State.diskCommand_eq]

@[simp] theorem State.diskCommand_hout (s : State) (fails : Bool) (cmd : Byte) (np dp sz : Word) : (s.diskCommand fails cmd np dp sz).hout = s.hout := by
  rw [State.diskCommand_eq]

@[simp] theorem State.diskCommand_diag (s : State) (fails : Bool) (cmd : Byte) (np dp sz : Word) : (s.diskCommand fails cmd np dp sz).diag = s.diag := by
  rw [State.diskCommand_eq]

@[simp] theorem State.diskCommand_outcome (s : State) (fails : Bool) (cmd : Byte) (np dp sz : Word) : (s.diskCommand fails cmd np dp sz).outcome = s.outcome := by
  rw [State.diskCommand_eq]

@[simp] theorem State.diskCommand_loaded (s : State) (fails : Bool) (cmd : Byte) (np dp sz : Word) : (s.diskCommand fails cmd np dp sz).loaded = s.loaded := by
  rw [State.diskCommand_eq]

@[simp] theorem State.diskCommand_diskDraws (s : State) (fails : Bool) (cmd : Byte) (np dp sz : Word) : (s.diskCommand fails cmd np dp sz).diskDraws = s.diskDraws := by
  rw [State.diskCommand_eq]

/-- A command keeps memory in canonical form. -/
theorem State.wf_diskCommand (s : State) (fails : Bool) (cmd : Byte) (namePtr dataPtr size : Word)
    (h : s.mem.wf = true) : (s.diskCommand fails cmd namePtr dataPtr size).mem.wf = true := by
  simp only [State.diskCommand, State.diskList, State.diskRead, State.diskWrite]
  split_ifs
  · exact h
  · exact State.wf_rawWrites _ _ _ h
  · split
    · exact h
    · exact State.wf_rawWrites _ _ _ (State.wf_rawWrites _ _ _ h)
  · exact h
  · exact h

/-- A command keeps the store or appends one entry to it, where the store is not full (R20). -/
theorem State.store_diskCommand (s : State) (fails : Bool) (cmd : Byte) (namePtr dataPtr size : Word)
    (h : s.store.length < Config.maxStoreEntries) :
    (s.diskCommand fails cmd namePtr dataPtr size).store = s.store ∨
      ∃ e, (s.diskCommand fails cmd namePtr dataPtr size).store = s.store ++ [e] := by
  simp only [State.diskCommand, State.diskList, State.diskRead, State.diskWrite]
  split_ifs
  · exact .inl rfl
  · exact .inl rfl
  · split <;> exact .inl rfl
  · exact .inr ⟨_, by simp only [appendEntry, if_pos h]; rfl⟩
  · exact .inl rfl

/-- A command depends on memory and the store only. -/
theorem State.diskCommand_of_same (s t : State) (hm : t.mem = s.mem) (hs : t.store = s.store) (fails : Bool)
    (cmd : Byte) (namePtr dataPtr size : Word) :
    (t.diskCommand fails cmd namePtr dataPtr size).mem = (s.diskCommand fails cmd namePtr dataPtr size).mem ∧
      (t.diskCommand fails cmd namePtr dataPtr size).store = (s.diskCommand fails cmd namePtr dataPtr size).store := by
  have hb : ∀ a, t.readByte a = s.readByte a := fun a => by simp only [State.readByte, hm]
  have hk : t.nameKey namePtr = s.nameKey namePtr := by simp only [State.nameKey, hb]
  have hr : ∀ a n, t.readBytes a n = s.readBytes a n := fun a n => by simp only [State.readBytes, hb]
  simp only [State.diskCommand, State.diskList, State.diskRead, State.diskWrite, hk, hr, hs]
  split_ifs
  · exact ⟨hm, hs⟩
  · exact ⟨by simp only [State.rawWrites_mem, hm], hs⟩
  · split
    · exact ⟨hm, hs⟩
    · exact ⟨by simp only [State.rawWrites_mem, hm], hs⟩
  · exact ⟨hm, rfl⟩
  · exact ⟨hm, hs⟩

/-! ### The bytes of List -/

theorem length_listBytes (es : List DirEntry) : (listBytes es).length = 17 * es.length + 1 := by
  induction es with
  | nil => rfl
  | cons e es ih => simp only [listBytes, List.length_append, List.length_cons, ih, Vector.length_toList]; omega

/-- The name of entry `i` (R152). -/
theorem listBytes_name (es : List DirEntry) (i j : Nat) (hi : i < es.length) (hj : j < 16)
    (h : 17 * i + j < (listBytes es).length) :
    (listBytes es)[17 * i + j] = es[i].name[j] := by
  induction es generalizing i with
  | nil => simp at hi
  | cons e es ih =>
    cases i with
    | zero =>
      simp only [listBytes]
      rw [List.getElem_append_left (by simpa using hj)]
      simp
    | succ i =>
      simp only [listBytes]
      rw [List.getElem_append_right (by simp; omega)]
      have e1 : 17 * (i + 1) + j - e.name.toList.length = 17 * i + j + 1 := by simp; omega
      simp only [e1, List.getElem_cons_succ]
      exact ih i (by simpa using hi) _

/-- The newline after it. -/
theorem listBytes_newline (es : List DirEntry) (i : Nat) (hi : i < es.length) (h : 17 * i + 16 < (listBytes es).length) :
    (listBytes es)[17 * i + 16] = 0x0A#8 := by
  induction es generalizing i with
  | nil => simp at hi
  | cons e es ih =>
    cases i with
    | zero =>
      simp only [listBytes]
      rw [List.getElem_append_right (by simp only [Vector.length_toList]; omega)]
      simp [newlineByte]
    | succ i =>
      simp only [listBytes]
      rw [List.getElem_append_right (by simp only [Vector.length_toList]; omega)]
      have e1 : 17 * (i + 1) + 16 - e.name.toList.length = 17 * i + 16 + 1 := by simp; omega
      simp only [e1, List.getElem_cons_succ]
      exact ih i (by simpa using hi) _

/-- The zero byte at the end. -/
theorem listBytes_end (es : List DirEntry) (h : 17 * es.length < (listBytes es).length) :
    (listBytes es)[17 * es.length] = 0x00#8 := by
  induction es with
  | nil => rfl
  | cons e es ih =>
      simp only [listBytes]
      rw [List.getElem_append_right (by simp; omega)]
      have e1 : 17 * (e :: es).length - e.name.toList.length = 17 * es.length + 1 := by simp; omega
      simp only [e1, List.getElem_cons_succ]
      exact ih _

/-! ### The dispatcher and an engine store -/

/-- An engine store changes memory, the store and the count of draws only. -/
theorem State.memWrite_eq (s : State) (a v : Word) :
    s.memWrite a v =
      { s with
        mem := (s.memWrite a v).mem
        store := (s.memWrite a v).store
        diskDraws := (s.memWrite a v).diskDraws } := by
  simp only [State.memWrite]
  split_ifs
  · simp only [State.dispatch]
    rw [State.diskCommand_eq]
    rfl
  · rfl

@[simp] theorem State.memWrite_regs (s : State) (a v : Word) : (s.memWrite a v).regs = s.regs := by
  rw [State.memWrite_eq]

@[simp] theorem State.memWrite_pc (s : State) (a v : Word) : (s.memWrite a v).pc = s.pc := by
  rw [State.memWrite_eq]

@[simp] theorem State.memWrite_sp (s : State) (a v : Word) : (s.memWrite a v).sp = s.sp := by
  rw [State.memWrite_eq]

@[simp] theorem State.memWrite_zeroFlag (s : State) (a v : Word) : (s.memWrite a v).zeroFlag = s.zeroFlag := by
  rw [State.memWrite_eq]

@[simp] theorem State.memWrite_running (s : State) (a v : Word) : (s.memWrite a v).running = s.running := by
  rw [State.memWrite_eq]

@[simp] theorem State.memWrite_interactive (s : State) (a v : Word) : (s.memWrite a v).interactive = s.interactive := by
  rw [State.memWrite_eq]

@[simp] theorem State.memWrite_inq (s : State) (a v : Word) : (s.memWrite a v).inq = s.inq := by
  rw [State.memWrite_eq]

@[simp] theorem State.memWrite_curX (s : State) (a v : Word) : (s.memWrite a v).curX = s.curX := by
  rw [State.memWrite_eq]

@[simp] theorem State.memWrite_curY (s : State) (a v : Word) : (s.memWrite a v).curY = s.curY := by
  rw [State.memWrite_eq]

@[simp] theorem State.memWrite_hin (s : State) (a v : Word) : (s.memWrite a v).hin = s.hin := by
  rw [State.memWrite_eq]

@[simp] theorem State.memWrite_hinEnded (s : State) (a v : Word) : (s.memWrite a v).hinEnded = s.hinEnded := by
  rw [State.memWrite_eq]

@[simp] theorem State.memWrite_hout (s : State) (a v : Word) : (s.memWrite a v).hout = s.hout := by
  rw [State.memWrite_eq]

@[simp] theorem State.memWrite_diag (s : State) (a v : Word) : (s.memWrite a v).diag = s.diag := by
  rw [State.memWrite_eq]

@[simp] theorem State.memWrite_outcome (s : State) (a v : Word) : (s.memWrite a v).outcome = s.outcome := by
  rw [State.memWrite_eq]

@[simp] theorem State.memWrite_loaded (s : State) (a v : Word) : (s.memWrite a v).loaded = s.loaded := by
  rw [State.memWrite_eq]

theorem State.wf_memWrite (s : State) (a v : Word) (h : s.mem.wf = true) : (s.memWrite a v).mem.wf = true := by
  simp only [State.memWrite]
  split_ifs
  · exact State.wf_diskCommand _ _ _ _ _ _ (State.wf_storeBytes _ _ _ h)
  · exact State.wf_storeBytes _ _ _ h

/-- An engine store depends on memory, the store and the count of draws only. -/
theorem State.memWrite_of_same (s t : State) (hm : t.mem = s.mem) (hs : t.store = s.store)
    (hd : t.diskDraws = s.diskDraws) (a v : Word) :
    (t.memWrite a v).mem = (s.memWrite a v).mem ∧ (t.memWrite a v).store = (s.memWrite a v).store ∧
      (t.memWrite a v).diskDraws = (s.memWrite a v).diskDraws := by
  have hm' : (t.storeBytes a v).mem = (s.storeBytes a v).mem := by simp only [State.storeBytes_mem, hm]
  have hb : ∀ c, (t.storeBytes a v).readByte c = (s.storeBytes a v).readByte c := fun c => by
    simp only [State.readByte, hm']
  have hw : ∀ c, (t.storeBytes a v).readWord c = (s.storeBytes a v).readWord c := fun c => by
    simp only [State.readWord, hb]
  simp only [State.memWrite]
  split_ifs
  · simp only [State.dispatch, hb, hw, State.storeBytes_diskDraws, hd]
    have h := State.diskCommand_of_same
      { s.storeBytes a v with diskDraws := s.diskDraws + 1 } { t.storeBytes a v with diskDraws := s.diskDraws + 1 }
      hm' hs (Config.storageFails s.diskDraws) ((s.storeBytes a v).readByte Config.diskCmdAddr)
      ((s.storeBytes a v).readWord Config.diskNamePtrAddr) ((s.storeBytes a v).readWord Config.diskDataPtrAddr)
      ((s.storeBytes a v).readWord Config.diskSizeAddr)
    exact ⟨h.1, h.2, by simp only [State.diskCommand_diskDraws]⟩
  · exact ⟨hm', hs, hd⟩

/-- Any byte on the command register counts (R44). -/
theorem hitsCommand_eq (a : Word) :
    hitsCommand a = (decide (a = Config.diskCmdAddr) || decide (add16 a 1 = Config.diskCmdAddr)) := rfl

/-- The dispatch check fires exactly for the two addresses of R44. -/
theorem hitsCommand_iff (a : Word) : hitsCommand a = true ↔ a = 0xE000#16 ∨ a = 0xDFFF#16 := by
  simp only [hitsCommand_eq, Bool.or_eq_true, decide_eq_true_eq, Config.diskCmdAddr, add16]
  refine or_congr Iff.rfl ?_
  constructor <;> intro h <;> bv_omega

/-- An engine store that misses the command register is its two byte writes. -/
theorem State.memWrite_of_miss (s : State) (a v : Word) (h1 : a ≠ 0xE000#16) (h2 : a ≠ 0xDFFF#16) :
    s.memWrite a v = s.storeBytes a v := by
  have h : ¬ hitsCommand a = true := fun h => ((hitsCommand_iff a).mp h).elim h1 h2
  simp only [State.memWrite, if_neg h]

/-- An engine store that hits it runs one command on the memory with both bytes. -/
theorem State.memWrite_of_hit (s : State) (a v : Word) (h : a = 0xE000#16 ∨ a = 0xDFFF#16) :
    s.memWrite a v = (s.storeBytes a v).dispatch := by
  simp only [State.memWrite, if_pos ((hitsCommand_iff a).mpr h)]

theorem State.diskDraws_dispatch (s : State) : s.dispatch.diskDraws = s.diskDraws + 1 := by
  simp only [State.dispatch, State.diskCommand_diskDraws]

/-! ### The stack -/

/-- A push changes `sp` and what an engine store changes. -/
theorem State.push16_eq (s : State) (v : Word) :
    s.push16 v =
      { s with
        sp := sub16 s.sp 2
        mem := (s.memWrite s.sp v).mem
        store := (s.memWrite s.sp v).store
        diskDraws := (s.memWrite s.sp v).diskDraws } := by
  simp only [State.push16, addrSub_eq]
  rw [State.memWrite_eq]

@[simp] theorem State.push16_regs (s : State) (v : Word) : (s.push16 v).regs = s.regs := by
  rw [State.push16_eq]

@[simp] theorem State.push16_pc (s : State) (v : Word) : (s.push16 v).pc = s.pc := by
  rw [State.push16_eq]

@[simp] theorem State.push16_zeroFlag (s : State) (v : Word) : (s.push16 v).zeroFlag = s.zeroFlag := by
  rw [State.push16_eq]

@[simp] theorem State.push16_running (s : State) (v : Word) : (s.push16 v).running = s.running := by
  rw [State.push16_eq]

@[simp] theorem State.push16_interactive (s : State) (v : Word) : (s.push16 v).interactive = s.interactive := by
  rw [State.push16_eq]

@[simp] theorem State.push16_inq (s : State) (v : Word) : (s.push16 v).inq = s.inq := by
  rw [State.push16_eq]

@[simp] theorem State.push16_curX (s : State) (v : Word) : (s.push16 v).curX = s.curX := by
  rw [State.push16_eq]

@[simp] theorem State.push16_curY (s : State) (v : Word) : (s.push16 v).curY = s.curY := by
  rw [State.push16_eq]

@[simp] theorem State.push16_hin (s : State) (v : Word) : (s.push16 v).hin = s.hin := by
  rw [State.push16_eq]

@[simp] theorem State.push16_hinEnded (s : State) (v : Word) : (s.push16 v).hinEnded = s.hinEnded := by
  rw [State.push16_eq]

@[simp] theorem State.push16_hout (s : State) (v : Word) : (s.push16 v).hout = s.hout := by
  rw [State.push16_eq]

@[simp] theorem State.push16_diag (s : State) (v : Word) : (s.push16 v).diag = s.diag := by
  rw [State.push16_eq]

@[simp] theorem State.push16_outcome (s : State) (v : Word) : (s.push16 v).outcome = s.outcome := by
  rw [State.push16_eq]

@[simp] theorem State.push16_loaded (s : State) (v : Word) : (s.push16 v).loaded = s.loaded := by
  rw [State.push16_eq]

theorem State.pop16_fst (s : State) : s.pop16.1 = s.readWord (add16 s.sp 2) := rfl

theorem State.pop16_snd (s : State) : s.pop16.2 = { s with sp := add16 s.sp 2 } := rfl

end Sys2Proof.Machine
end

