-- ==== Sys2Proof/Laws/Queue.lean ====
section
/-! SUPPORT. What the Input Queue's operations answer. -/

namespace Sys2Proof.Machine

theorem InputQueue.dequeue?_of_empty (q : InputQueue) (h : q.head = q.tail) : q.dequeue? = none := by
  simp [InputQueue.dequeue?, h]

theorem InputQueue.dequeue?_of_pending (q : InputQueue) (h : q.head ≠ q.tail) :
    q.dequeue? = some (q.buf[q.head], { q with head := q.head + 1 }) := by
  simp [InputQueue.dequeue?, h]

theorem InputQueue.dequeue?_eq_none (q : InputQueue) : q.dequeue? = none ↔ q.head = q.tail := by
  by_cases h : q.head = q.tail <;> simp [InputQueue.dequeue?, h]

/-- Nothing is pending exactly when the two indices meet (R18). -/
theorem InputQueue.pending_eq_zero (q : InputQueue) : q.pending = 0 ↔ q.head = q.tail := by
  simp only [InputQueue.pending]
  constructor
  · intro h
    have : q.tail - q.head = 0 := Fin.ext h
    exact (sub_eq_zero.mp this).symm
  · intro h
    simp [h]

/-! ### The pending codes as a list -/

theorem InputQueue.length_contents (q : InputQueue) : q.contents.length = q.pending := by simp [InputQueue.contents]

theorem InputQueue.contents_eq_nil (q : InputQueue) : q.contents = [] ↔ q.head = q.tail := by
  simp [InputQueue.contents, InputQueue.pending_eq_zero]

/-- The oldest pending code stands at the head, and the rest is what is pending once the head has moved on (R171). -/
theorem InputQueue.contents_of_pending (q : InputQueue) (h : q.head ≠ q.tail) :
    q.contents = q.buf[q.head] :: ({ q with head := q.head + 1 } : InputQueue).contents := by
  have hp : q.pending = ({ q with head := q.head + 1 } : InputQueue).pending + 1 := by
    simp only [InputQueue.pending]
    have hne : q.head.val ≠ q.tail.val := fun e => h (Fin.ext e)
    simp only [Fin.sub_def, Fin.val_add]
    have := q.head.isLt
    have := q.tail.isLt
    simp
    omega
  simp only [InputQueue.contents, hp, List.range_succ_eq_map, List.map_cons, List.map_map]
  congr 1
  · simp [Nat.mod_eq_of_lt q.head.isLt]
  · apply List.map_congr_left
    intro j _
    simp only [Function.comp, Fin.val_add]
    congr 1
    have := q.head.isLt
    simp
    omega

end Sys2Proof.Machine
end

