-- ==== Sys2Proof/Laws/Exec.lean ====
section
/-! SUPPORT. Each instruction's meaning unfolded once, with valid registers and with one out of range, and what a step can
do. -/

namespace Sys2Proof.Machine

/-! ### Valid registers -/

theorem exec_load (r : Fin 8) (imm : Word) (s : State) :
    exec (.load (.gpr r) imm) s = .next ((s.advance .load).setReg r imm) := rfl

theorem exec_loadm (r : Fin 8) (a : Word) (s : State) :
    exec (.loadm (.gpr r) a) s = .next ((s.advance .loadm).setReg r (s.readWord a)) := rfl

theorem exec_loadr (d a : Fin 8) (s : State) :
    exec (.loadr (.gpr d) (.gpr a)) s = .next ((s.advance .loadr).setReg d (s.readWord (s.reg a))) := rfl

theorem exec_store (r : Fin 8) (a : Word) (s : State) :
    exec (.store (.gpr r) a) s = .next ((s.advance .store).memWrite a (s.reg r)) := rfl

theorem exec_storer (v a : Fin 8) (s : State) :
    exec (.storer (.gpr v) (.gpr a)) s = .next ((s.advance .storer).memWrite (s.reg a) (s.reg v)) := rfl

theorem exec_add (a b : Fin 8) (s : State) :
    exec (.add (.gpr a) (.gpr b)) s =
      .next (((s.advance .add).setReg a (s.reg a + s.reg b)).setZeroOf (s.reg a + s.reg b)) := rfl

theorem exec_sub (a b : Fin 8) (s : State) :
    exec (.sub (.gpr a) (.gpr b)) s =
      .next (((s.advance .sub).setReg a (s.reg a - s.reg b)).setZeroOf (s.reg a - s.reg b)) := rfl

theorem exec_cmp (a b : Fin 8) (s : State) :
    exec (.cmp (.gpr a) (.gpr b)) s = .next ((s.advance .cmp).setZeroEq (s.reg a) (s.reg b)) := rfl

theorem exec_jmp (a : Word) (s : State) : exec (.jmp a) s = .next { s.advance .jmp with pc := a } := rfl

theorem exec_jz (a : Word) (s : State) :
    exec (.jz a) s = .next (if s.zeroFlag then { s.advance .jz with pc := a } else s.advance .jz) := rfl

theorem exec_call (a : Word) (s : State) :
    exec (.call a) s = .next { (s.advance .call).push16 (add16 s.pc 3) with pc := a } := rfl

theorem exec_ret (s : State) :
    exec .ret s = .next { s.advance .ret with sp := add16 s.sp 2, pc := s.readWord (add16 s.sp 2) } := rfl

theorem exec_halt (s : State) : exec .halt s = .next (s.advance .halt).stopHalted := rfl

theorem exec_push (r : Fin 8) (s : State) :
    exec (.push (.gpr r)) s = .next ((s.advance .push).push16 (s.reg r)) := rfl

theorem exec_pop (r : Fin 8) (s : State) :
    exec (.pop (.gpr r)) s =
      .next (State.setReg { s.advance .pop with sp := add16 s.sp 2 } r (s.readWord (add16 s.sp 2))) := rfl

theorem exec_print (r : Fin 8) (s : State) :
    exec (.print (.gpr r)) s = .next { s.advance .print with diag := s.diag ++ [s.reg r] } := rfl

theorem exec_out (r : Fin 8) (s : State) :
    exec (.out (.gpr r)) s =
      .next (if s.interactive then (s.advance .out).putChar (lowByte (s.reg r))
        else { s.advance .out with hout := s.hout ++ [lowByte (s.reg r)] }) := rfl

theorem exec_inp (r : Fin 8) (s : State) :
    exec (.inp (.gpr r)) s =
      if s.interactive then inInteractive s r (s.advance .inp) else inHeadless r (s.advance .inp) := rfl

/-! ### One register out of range (R69) -/

@[simp] theorem exec_load_oor (b : Byte) (imm : Word) (s : State) :
    exec (.load (.outOfRange b) imm) s = .next (s.advance .load) := rfl

@[simp] theorem exec_loadm_oor (b : Byte) (a : Word) (s : State) :
    exec (.loadm (.outOfRange b) a) s = .next (s.advance .loadm) := rfl

@[simp] theorem exec_store_oor (b : Byte) (a : Word) (s : State) :
    exec (.store (.outOfRange b) a) s = .next (s.advance .store) := rfl

@[simp] theorem exec_print_oor (b : Byte) (s : State) :
    exec (.print (.outOfRange b)) s = .next (s.advance .print) := rfl

@[simp] theorem exec_push_oor (b : Byte) (s : State) :
    exec (.push (.outOfRange b)) s = .next (s.advance .push) := rfl

@[simp] theorem exec_pop_oor (b : Byte) (s : State) :
    exec (.pop (.outOfRange b)) s = .next (s.advance .pop) := rfl

@[simp] theorem exec_inp_oor (b : Byte) (s : State) :
    exec (.inp (.outOfRange b)) s = .next (s.advance .inp) := rfl

@[simp] theorem exec_out_oor (b : Byte) (s : State) :
    exec (.out (.outOfRange b)) s = .next (s.advance .out) := rfl

@[simp] theorem exec_add_oor_left (b : Byte) (q : RegOperand) (s : State) :
    exec (.add (.outOfRange b) q) s = .next (s.advance .add) := rfl

@[simp] theorem exec_add_oor_right (r : RegOperand) (b : Byte) (s : State) :
    exec (.add r (.outOfRange b)) s = .next (s.advance .add) := by
  cases r <;> rfl

@[simp] theorem exec_sub_oor_left (b : Byte) (q : RegOperand) (s : State) :
    exec (.sub (.outOfRange b) q) s = .next (s.advance .sub) := rfl

@[simp] theorem exec_sub_oor_right (r : RegOperand) (b : Byte) (s : State) :
    exec (.sub r (.outOfRange b)) s = .next (s.advance .sub) := by
  cases r <;> rfl

@[simp] theorem exec_cmp_oor_left (b : Byte) (q : RegOperand) (s : State) :
    exec (.cmp (.outOfRange b) q) s = .next (s.advance .cmp) := rfl

@[simp] theorem exec_cmp_oor_right (r : RegOperand) (b : Byte) (s : State) :
    exec (.cmp r (.outOfRange b)) s = .next (s.advance .cmp) := by
  cases r <;> rfl

@[simp] theorem exec_loadr_oor_left (b : Byte) (q : RegOperand) (s : State) :
    exec (.loadr (.outOfRange b) q) s = .next (s.advance .loadr) := rfl

@[simp] theorem exec_loadr_oor_right (r : RegOperand) (b : Byte) (s : State) :
    exec (.loadr r (.outOfRange b)) s = .next (s.advance .loadr) := by
  cases r <;> rfl

@[simp] theorem exec_storer_oor_left (b : Byte) (q : RegOperand) (s : State) :
    exec (.storer (.outOfRange b) q) s = .next (s.advance .storer) := rfl

@[simp] theorem exec_storer_oor_right (r : RegOperand) (b : Byte) (s : State) :
    exec (.storer r (.outOfRange b)) s = .next (s.advance .storer) := by
  cases r <;> rfl

/-! ### Input, taken apart -/

/-- Everything `IN` with a valid register can do (R122). -/
theorem exec_inp_cases (r : Fin 8) (s : State) :
    (s.interactive = true ∧ s.inq.head = s.inq.tail ∧
        exec (.inp (.gpr r)) s = .next { s with outcome := some .blocked }) ∨
      (s.interactive = true ∧ s.inq.head ≠ s.inq.tail ∧
        exec (.inp (.gpr r)) s =
          .next (State.setReg { s.advance .inp with inq := { s.inq with head := s.inq.head + 1 } } r
            (zext16 s.inq.buf[s.inq.head]))) ∨
      (s.interactive = false ∧ ∃ b rest, s.hin = b :: rest ∧
        exec (.inp (.gpr r)) s = .next (State.setReg { s.advance .inp with hin := rest } r (zext16 b))) ∨
      (s.interactive = false ∧ s.hin = [] ∧ s.hinEnded = true ∧
        exec (.inp (.gpr r)) s = .next (s.advance .inp).stopHalted) ∨
      (s.interactive = false ∧ s.hin = [] ∧ s.hinEnded = false ∧ exec (.inp (.gpr r)) s = .fault .hinNoAnswer) := by
  rw [exec_inp]
  cases hi : s.interactive
  · cases hh : s.hin with
    | nil => cases he : s.hinEnded <;> simp [inHeadless, hh, he]
    | cons b rest => simp [inHeadless, hh]
  · by_cases hq : s.inq.head = s.inq.tail
    · exact .inl ⟨rfl, hq, by simp [inInteractive, InputQueue.dequeue?_of_empty _ hq, hi]⟩
    · exact .inr (.inl ⟨rfl, hq, by simp [inInteractive, InputQueue.dequeue?_of_pending _ hq, hi]⟩)

/-! ### The step -/

theorem step_of_fetch_ok (s : State) (i : Instr) (hr : s.running = true) (hf : s.fetch = .ok i) : step s = exec i s := by
  simp only [step, hr, if_true, hf]

theorem step_of_fetch_error (s : State) (op : Byte) (hr : s.running = true) (hf : s.fetch = .error op) :
    step s = .next (s.raiseDecodeError op s.pc) := by
  simp only [step, hr, if_true, hf]

/-- Everything a step that answers a next state can do (R9, R136). -/
theorem step_cases (s t : State) (h : step s = .next t) :
    (s.running = false ∧ t = { s with outcome := some .halted }) ∨
      (s.running = true ∧ ∃ op, s.fetch = .error op ∧ t = s.raiseDecodeError op s.pc) ∨
      (s.running = true ∧ ∃ i, s.fetch = .ok i ∧ exec i s = .next t) := by
  simp only [step] at h
  split at h
  · rename_i hr
    split at h
    · rename_i i hf
      exact .inr (.inr ⟨hr, i, hf, h⟩)
    · rename_i op hf
      exact .inr (.inl ⟨hr, op, hf, by simpa using h.symm⟩)
  · rename_i hr
    exact .inl ⟨by simpa using hr, by simpa using h.symm⟩

/-- A fetch fails exactly on a byte that is no opcode, and reports it. -/
theorem State.fetch_eq_error (s : State) (op : Byte) :
    s.fetch = .error op ↔ op = s.readByte s.pc ∧ mnemonicOf? (s.readByte s.pc) = none := by
  simp only [State.fetch]
  split <;> rename_i h <;> simp [h, eq_comm]

end Sys2Proof.Machine
end

