-- ==== Sys2Proof/Laws/HostOps.lean ====
section
/-! SUPPORT. Everything the host's operations can do when they answer, and when `load` is refused. -/

namespace Sys2Proof.Machine

theorem State.admitsLoad_iff (s : State) : s.admitsLoad = true ↔ s.loaded = false ∧ s.outcome = none := by
  simp [State.admitsLoad]

/-- A load that is admitted, of an image that fits (R184). -/
theorem State.load_of_admitted (s : State) (image : List Byte) (h : s.loaded = false) (ho : s.outcome = none)
    (hl : image.length ≤ Config.memSize) : s.load image = .next { s.rawWrites 0 image with loaded := true } := by
  rw [State.load, if_pos ((State.admitsLoad_iff s).mpr ⟨h, ho⟩), if_neg (Nat.not_lt.mpr hl)]

/-- A load that is admitted, of an image that is too large (R184). -/
theorem State.load_of_too_large (s : State) (image : List Byte) (h : s.loaded = false) (ho : s.outcome = none)
    (hl : Config.memSize < image.length) : s.load image = .fault (.loadError image.length) := by
  rw [State.load, if_pos ((State.admitsLoad_iff s).mpr ⟨h, ho⟩), if_pos hl]

/-- A second load, or one after a step (D24, U17). -/
theorem State.load_of_not_admitted (s : State) (image : List Byte) (h : s.loaded = true ∨ s.outcome ≠ none) :
    s.load image = .refused .loadNotAdmitted := by
  rw [State.load, if_neg]
  rw [State.admitsLoad_iff]
  rintro ⟨h1, h2⟩
  exact h.elim (by simp [h1]) (fun h => h h2)

/-- All that a load which answers can do. -/
theorem State.load_cases (s t : State) (image : List Byte) (h : s.load image = .next t) :
    s.loaded = false ∧ s.outcome = none ∧ image.length ≤ Config.memSize ∧
      t = { s.rawWrites 0 image with loaded := true } := by
  rw [State.load] at h
  split_ifs at h with ha hl
  obtain ⟨h1, h2⟩ := (State.admitsLoad_iff s).mp ha
  cases h
  exact ⟨h1, h2, Nat.not_lt.mp hl, rfl⟩

theorem State.enqueue_cases (s t : State) (code : Byte) (h : s.enqueue code = .next t) :
    s.interactive = true ∧ t = { s with inq := s.inq.enqueue code } := by
  rw [State.enqueue] at h
  split_ifs at h with hi
  cases h
  exact ⟨hi, rfl⟩

theorem State.supplyHin_cases (s t : State) (b : Byte) (h : s.supplyHin b = .next t) :
    s.interactive = false ∧ s.hinEnded = false ∧ t = { s with hin := s.hin ++ [b] } := by
  rw [State.supplyHin] at h
  split_ifs at h with hi he
  cases h
  exact ⟨by simpa using hi, by simpa using he, rfl⟩

theorem State.endHin_cases (s t : State) (h : s.endHin = .next t) :
    s.interactive = false ∧ t = { s with hinEnded := true } := by
  rw [State.endHin] at h
  split_ifs at h with hi
  cases h
  exact ⟨by simpa using hi, rfl⟩

/-- Loading keeps memory in canonical form. -/
theorem State.wf_load (s t : State) (image : List Byte) (hw : s.mem.wf = true) (h : s.load image = .next t) :
    t.mem.wf = true := by
  obtain ⟨-, -, -, rfl⟩ := State.load_cases s t image h
  exact State.wf_rawWrites s 0 image hw

end Sys2Proof.Machine
end

