-- ==== Sys2Proof/Laws/PerInstr.lean ====
section
/-! SUPPORT. What is said of every instruction, constructor by constructor. -/

namespace Sys2Proof.Laws.EncodeLength

open Sys2Proof

/-- The encoding starts with the mnemonic's opcode byte and has as many bytes as the mnemonic's format, 1 to 4
(spec/30_encoding.md rules R61, R62). -/
def Statement (i : Instr) : Prop :=
  (encode i).head? = some (Config.opc i.mnemonic) ∧ (encode i).length = i.length ∧ 1 ≤ i.length ∧ i.length ≤ 4

theorem load (r : RegOperand) (w : Word) : Statement (.load r w) := ⟨rfl, rfl, Nat.le_of_ble_eq_true rfl, Nat.le_of_ble_eq_true rfl⟩

theorem add (a b : RegOperand) : Statement (.add a b) := ⟨rfl, rfl, Nat.le_of_ble_eq_true rfl, Nat.le_of_ble_eq_true rfl⟩

theorem sub (a b : RegOperand) : Statement (.sub a b) := ⟨rfl, rfl, Nat.le_of_ble_eq_true rfl, Nat.le_of_ble_eq_true rfl⟩

theorem loadm (r : RegOperand) (w : Word) : Statement (.loadm r w) := ⟨rfl, rfl, Nat.le_of_ble_eq_true rfl, Nat.le_of_ble_eq_true rfl⟩

theorem store (r : RegOperand) (w : Word) : Statement (.store r w) := ⟨rfl, rfl, Nat.le_of_ble_eq_true rfl, Nat.le_of_ble_eq_true rfl⟩

theorem jmp (w : Word) : Statement (.jmp w) := ⟨rfl, rfl, Nat.le_of_ble_eq_true rfl, Nat.le_of_ble_eq_true rfl⟩

theorem jz (w : Word) : Statement (.jz w) := ⟨rfl, rfl, Nat.le_of_ble_eq_true rfl, Nat.le_of_ble_eq_true rfl⟩

theorem print (r : RegOperand) : Statement (.print r) := ⟨rfl, rfl, Nat.le_of_ble_eq_true rfl, Nat.le_of_ble_eq_true rfl⟩

theorem cmp (a b : RegOperand) : Statement (.cmp a b) := ⟨rfl, rfl, Nat.le_of_ble_eq_true rfl, Nat.le_of_ble_eq_true rfl⟩

theorem push (r : RegOperand) : Statement (.push r) := ⟨rfl, rfl, Nat.le_of_ble_eq_true rfl, Nat.le_of_ble_eq_true rfl⟩

theorem pop (r : RegOperand) : Statement (.pop r) := ⟨rfl, rfl, Nat.le_of_ble_eq_true rfl, Nat.le_of_ble_eq_true rfl⟩

theorem call (w : Word) : Statement (.call w) := ⟨rfl, rfl, Nat.le_of_ble_eq_true rfl, Nat.le_of_ble_eq_true rfl⟩

theorem ret : Statement .ret := ⟨rfl, rfl, Nat.le_of_ble_eq_true rfl, Nat.le_of_ble_eq_true rfl⟩

theorem inp (r : RegOperand) : Statement (.inp r) := ⟨rfl, rfl, Nat.le_of_ble_eq_true rfl, Nat.le_of_ble_eq_true rfl⟩

theorem out (r : RegOperand) : Statement (.out r) := ⟨rfl, rfl, Nat.le_of_ble_eq_true rfl, Nat.le_of_ble_eq_true rfl⟩

theorem loadr (a b : RegOperand) : Statement (.loadr a b) := ⟨rfl, rfl, Nat.le_of_ble_eq_true rfl, Nat.le_of_ble_eq_true rfl⟩

theorem storer (a b : RegOperand) : Statement (.storer a b) := ⟨rfl, rfl, Nat.le_of_ble_eq_true rfl, Nat.le_of_ble_eq_true rfl⟩

theorem halt : Statement .halt := ⟨rfl, rfl, Nat.le_of_ble_eq_true rfl, Nat.le_of_ble_eq_true rfl⟩

end Sys2Proof.Laws.EncodeLength
end

