-- ==== Sys2Proof/Laws/Stores.lean ====
section
/-! SUPPORT. Everything an engine store can do, everything an instruction that answers a next state can do, and the small
laws of the frames of Sys2Proof/Safety.lean. -/

namespace Sys2Proof.Machine

/-! ### Frames -/

/-- Writing one register leaves the others (R10). -/
theorem regsSameBut_of_set (s t : State) (r : Fin 8) (v : Word) (h : t.regs = s.regs.set r v) :
    RegsSameBut [r] s t := by
  intro q hq
  have hne : q ≠ r := by simpa using hq
  have hset := State.reg_setReg_ne s r q v hne
  simpa [State.reg, State.setReg, h] using hset

theorem State.readWord_toNat (s : State) (a : Word) :
    (s.readWord a).toNat = (s.readByte a).toNat + 256 * (s.readByte (add16 a 1)).toNat := wordOfBytes_toNat _ _

/-- A word read where a word's two bytes lie is that word (R36). -/
theorem State.readWord_of_bytes (s : State) (a v : Word) (hlo : s.readByte a = lowByte v)
    (hhi : s.readByte (add16 a 1) = highByte v) : s.readWord a = v := by
  rw [State.readWord, addrAdd_eq, hlo, hhi, wordInMemory_eq, wordOfBytes_low_high]

/-- One more step in front of a run. -/
theorem core_run_succ (k : Nat) (s t : State) (h : step s = .next t) :
    Sys2Proof.core.run (k + 1) s = Sys2Proof.core.run k t := by
  have h' : Sys2Proof.core.step s = .next t := h
  simp only [Host.Core.run, h']

/-! ### Engine stores -/

/-- Where `pc` is after an instruction that stores: the target of `CALL`, else the next instruction. -/
def storePc (i : Instr) (s : State) : Word :=
  match i with
  | .call target => target
  | _ => s.pc + BitVec.ofNat 16 i.length

theorem storePc_of_not_call (i : Instr) (s : State) (h : i.mnemonic ≠ .call) :
    storePc i s = s.pc + BitVec.ofNat 16 i.length := by
  unfold storePc
  split
  · simp [Instr.mnemonic] at h
  · rfl

/-- The whole effect of an instruction that makes an engine store (R37). -/
theorem exec_of_engineStore (i : Instr) (s : State) (a v : Word) (h : engineStore? i s = some (a, v)) :
    exec i s = .next
      { s with
        pc := storePc i s
        sp := if i.mnemonic = .push ∨ i.mnemonic = .call then s.sp - 2 else s.sp
        outcome := some .continued
        mem := (s.memWrite a v).mem
        store := (s.memWrite a v).store
        diskDraws := (s.memWrite a v).diskDraws } := by
  have hw : ∀ (m : Mnemonic) (a v : Word), (s.advance m).memWrite a v =
      { s.advance m with
        mem := (s.memWrite a v).mem
        store := (s.memWrite a v).store
        diskDraws := (s.memWrite a v).diskDraws } := by
    intro m a v
    rw [State.memWrite_eq]
    obtain ⟨h1, h2, h3⟩ := State.memWrite_of_same s (s.advance m) rfl rfl rfl a v
    rw [h1, h2, h3]
  have hp : ∀ (m : Mnemonic) (v : Word), (s.advance m).push16 v =
      { s.advance m with
        sp := sub16 s.sp 2
        mem := (s.memWrite s.sp v).mem
        store := (s.memWrite s.sp v).store
        diskDraws := (s.memWrite s.sp v).diskDraws } := by
    intro m v
    rw [State.push16_eq]
    obtain ⟨h1, h2, h3⟩ := State.memWrite_of_same s (s.advance m) rfl rfl rfl s.sp v
    simp only [State.advance_sp]
    rw [h1, h2, h3]
  match i, h with
  | .store (.gpr r) addr, h =>
    simp only [engineStore?, Option.some.injEq, Prod.mk.injEq] at h
    obtain ⟨rfl, rfl⟩ := h
    rw [exec_store, hw]; rfl
  | .storer (.gpr r) (.gpr q), h =>
    simp only [engineStore?, Option.some.injEq, Prod.mk.injEq] at h
    obtain ⟨rfl, rfl⟩ := h
    rw [exec_storer, hw]; rfl
  | .push (.gpr r), h =>
    simp only [engineStore?, Option.some.injEq, Prod.mk.injEq] at h
    obtain ⟨rfl, rfl⟩ := h
    rw [exec_push, hp]; rfl
  | .call t, h =>
    simp only [engineStore?, Option.some.injEq, Prod.mk.injEq] at h
    obtain ⟨rfl, rfl⟩ := h
    rw [exec_call, hp]; rfl

/-- The two bytes an engine store writes, and that it writes no other (R34). -/
theorem storeBytes_frame (s : State) (a v : Word) (hw : s.mem.wf = true) :
    (s.storeBytes a v).readByte a = lowByte v ∧ (s.storeBytes a v).readByte (add16 a 1) = highByte v ∧
      MemSameBut a 2 s (s.storeBytes a v) := by
  refine ⟨?_, ?_, fun b hb => ?_⟩
  · rw [State.readByte_storeBytes _ _ _ _ hw, if_neg (add16_one_ne a).symm, if_pos rfl]
  · rw [State.readByte_storeBytes _ _ _ _ hw, if_pos rfl]
  · have h0 : b ≠ a := by simpa [add16] using hb 0 (by omega)
    have h1 : b ≠ add16 a 1 := hb 1 (by omega)
    rw [State.readByte_storeBytes _ _ _ _ hw, if_neg h1, if_neg h0]

/-! ### All instructions -/

/-- Everything an instruction can do when it answers a next state, as an elimination principle: to show `P` of every such
instruction and state, show it of each effect. -/
theorem exec_elim {P : Instr → State → Prop} {s : State}
    (noop : ∀ i, (∃ b, .outOfRange b ∈ i.regOperands) → P i (s.advance i.mnemonic))
    (store : ∀ i a v, engineStore? i s = some (a, v) → P i
      { s with
        pc := storePc i s
        sp := if i.mnemonic = .push ∨ i.mnemonic = .call then s.sp - 2 else s.sp
        outcome := some .continued
        mem := (s.memWrite a v).mem
        store := (s.memWrite a v).store
        diskDraws := (s.memWrite a v).diskDraws })
    (load : ∀ r imm, P (.load (.gpr r) imm) ((s.advance .load).setReg r imm))
    (loadm : ∀ r a, P (.loadm (.gpr r) a) ((s.advance .loadm).setReg r (s.readWord a)))
    (loadr : ∀ d a, P (.loadr (.gpr d) (.gpr a)) ((s.advance .loadr).setReg d (s.readWord (s.reg a))))
    (add : ∀ a b, P (.add (.gpr a) (.gpr b))
      (((s.advance .add).setReg a (s.reg a + s.reg b)).setZeroOf (s.reg a + s.reg b)))
    (sub : ∀ a b, P (.sub (.gpr a) (.gpr b))
      (((s.advance .sub).setReg a (s.reg a - s.reg b)).setZeroOf (s.reg a - s.reg b)))
    (cmp : ∀ a b, P (.cmp (.gpr a) (.gpr b)) ((s.advance .cmp).setZeroEq (s.reg a) (s.reg b)))
    (jmp : ∀ a, P (.jmp a) { s.advance .jmp with pc := a })
    (jz : ∀ a, P (.jz a) (if s.zeroFlag then { s.advance .jz with pc := a } else s.advance .jz))
    (ret : P .ret { s.advance .ret with sp := add16 s.sp 2, pc := s.readWord (add16 s.sp 2) })
    (halt : P .halt (s.advance .halt).stopHalted)
    (pop : ∀ r, P (.pop (.gpr r))
      (State.setReg { s.advance .pop with sp := add16 s.sp 2 } r (s.readWord (add16 s.sp 2))))
    (print : ∀ r, P (.print (.gpr r)) { s.advance .print with diag := s.diag ++ [s.reg r] })
    (outCell : ∀ r, s.interactive = true → P (.out (.gpr r)) ((s.advance .out).putChar (lowByte (s.reg r))))
    (outByte : ∀ r, s.interactive = false →
      P (.out (.gpr r)) { s.advance .out with hout := s.hout ++ [lowByte (s.reg r)] })
    (blocked : ∀ r, s.interactive = true → s.inq.head = s.inq.tail →
      P (.inp (.gpr r)) { s with outcome := some .blocked })
    (code : ∀ r, s.interactive = true → s.inq.head ≠ s.inq.tail →
      P (.inp (.gpr r)) (State.setReg { s.advance .inp with inq := { s.inq with head := s.inq.head + 1 } } r
        (zext16 s.inq.buf[s.inq.head])))
    (byte : ∀ r b rest, s.interactive = false → s.hin = b :: rest →
      P (.inp (.gpr r)) (State.setReg { s.advance .inp with hin := rest } r (zext16 b)))
    (ended : ∀ r, s.interactive = false → s.hin = [] → s.hinEnded = true →
      P (.inp (.gpr r)) (s.advance .inp).stopHalted)
    (i : Instr) (t : State) (h : exec i s = .next t) : P i t := by
  have hoor : (∃ b, .outOfRange b ∈ i.regOperands) → exec i s = .next (s.advance i.mnemonic) → P i t :=
    fun hb he => by rw [h] at he; cases he; exact noop i hb
  have hst : ∀ a v, engineStore? i s = some (a, v) → P i t := fun a v he => by
    have := store i a v he
    rw [exec_of_engineStore i s a v he] at h
    cases h; exact this
  match i, hoor, hst with
  | .load (.outOfRange b) _, hoor, _ => exact hoor ⟨b, by simp [Instr.regOperands]⟩ (by simp [Instr.mnemonic])
  | .loadm (.outOfRange b) _, hoor, _ => exact hoor ⟨b, by simp [Instr.regOperands]⟩ (by simp [Instr.mnemonic])
  | .store (.outOfRange b) _, hoor, _ => exact hoor ⟨b, by simp [Instr.regOperands]⟩ (by simp [Instr.mnemonic])
  | .print (.outOfRange b), hoor, _ => exact hoor ⟨b, by simp [Instr.regOperands]⟩ (by simp [Instr.mnemonic])
  | .push (.outOfRange b), hoor, _ => exact hoor ⟨b, by simp [Instr.regOperands]⟩ (by simp [Instr.mnemonic])
  | .pop (.outOfRange b), hoor, _ => exact hoor ⟨b, by simp [Instr.regOperands]⟩ (by simp [Instr.mnemonic])
  | .inp (.outOfRange b), hoor, _ => exact hoor ⟨b, by simp [Instr.regOperands]⟩ (by simp [Instr.mnemonic])
  | .out (.outOfRange b), hoor, _ => exact hoor ⟨b, by simp [Instr.regOperands]⟩ (by simp [Instr.mnemonic])
  | .add (.outOfRange b) _, hoor, _ => exact hoor ⟨b, by simp [Instr.regOperands]⟩ (by simp [Instr.mnemonic])
  | .add (.gpr _) (.outOfRange b), hoor, _ => exact hoor ⟨b, by simp [Instr.regOperands]⟩ (by simp [Instr.mnemonic])
  | .sub (.outOfRange b) _, hoor, _ => exact hoor ⟨b, by simp [Instr.regOperands]⟩ (by simp [Instr.mnemonic])
  | .sub (.gpr _) (.outOfRange b), hoor, _ => exact hoor ⟨b, by simp [Instr.regOperands]⟩ (by simp [Instr.mnemonic])
  | .cmp (.outOfRange b) _, hoor, _ => exact hoor ⟨b, by simp [Instr.regOperands]⟩ (by simp [Instr.mnemonic])
  | .cmp (.gpr _) (.outOfRange b), hoor, _ => exact hoor ⟨b, by simp [Instr.regOperands]⟩ (by simp [Instr.mnemonic])
  | .loadr (.outOfRange b) _, hoor, _ => exact hoor ⟨b, by simp [Instr.regOperands]⟩ (by simp [Instr.mnemonic])
  | .loadr (.gpr _) (.outOfRange b), hoor, _ => exact hoor ⟨b, by simp [Instr.regOperands]⟩ (by simp [Instr.mnemonic])
  | .storer (.outOfRange b) _, hoor, _ => exact hoor ⟨b, by simp [Instr.regOperands]⟩ (by simp [Instr.mnemonic])
  | .storer (.gpr _) (.outOfRange b), hoor, _ => exact hoor ⟨b, by simp [Instr.regOperands]⟩ (by simp [Instr.mnemonic])
  | .store (.gpr _) _, _, hst => exact hst _ _ rfl
  | .storer (.gpr _) (.gpr _), _, hst => exact hst _ _ rfl
  | .push (.gpr _), _, hst => exact hst _ _ rfl
  | .call _, _, hst => exact hst _ _ rfl
  | .load (.gpr r) imm, _, _ => cases h; exact load r imm
  | .loadm (.gpr r) a, _, _ => cases h; exact loadm r a
  | .loadr (.gpr d) (.gpr a), _, _ => cases h; exact loadr d a
  | .add (.gpr a) (.gpr b), _, _ => cases h; exact add a b
  | .sub (.gpr a) (.gpr b), _, _ => cases h; exact sub a b
  | .cmp (.gpr a) (.gpr b), _, _ => cases h; exact cmp a b
  | .jmp a, _, _ => cases h; exact jmp a
  | .jz a, _, _ => cases h; exact jz a
  | .ret, _, _ => cases h; exact ret
  | .halt, _, _ => cases h; exact halt
  | .pop (.gpr r), _, _ => cases h; exact pop r
  | .print (.gpr r), _, _ => cases h; exact print r
  | .out (.gpr r), _, _ =>
    rw [exec_out] at h
    cases hi : s.interactive
    · simp only [hi, Bool.false_eq_true, if_false] at h; cases h; exact outByte r hi
    · simp only [hi, if_true] at h; cases h; exact outCell r hi
  | .inp (.gpr r), _, _ =>
    rcases exec_inp_cases r s with ⟨h1, h2, e⟩ | ⟨h1, h2, e⟩ | ⟨h1, b, rest, h2, e⟩ | ⟨h1, h2, h3, e⟩ | ⟨h1, h2, h3, e⟩ <;>
      rw [e] at h <;> cases h
    · exact blocked r h1 h2
    · exact code r h1 h2
    · exact byte r b rest h1 h2
    · exact ended r h1 h2 h3

end Sys2Proof.Machine
end

