-- ==== Sys2Proof/Tests/Slice0.lean ====
section
/-! SUPPORT. Tests: expected results are the spec's own (the encodings of spec/30_encoding.md R62 and R67, the vectors V<n> and
worked examples of spec/95_test_vectors.md), never the model's; then, for each obligation with hypotheses, a state that
meets them. -/

namespace Sys2Proof.Tests

open Sys2Proof Sys2Proof.Machine

/-- The reset state with some bytes from address 0. -/
def boot (bytes : List Byte) : State := State.reset.rawWrites 0 bytes

/-- A field of the next state, if there is one. -/
def after {α : Type} (o : Result) (f : State → α) : Option α :=
  match o with
  | .next t => some (f t)
  | .fault _ => none
  | .refused _ => none

/-! ### WellFormed: each check refuses an ill-formed term -/

theorem test_wellFormed_register_operand : (RegOperand.outOfRange 7).wellFormed = false := by decide

theorem test_wellFormed_first_operand : (Instr.load (.outOfRange 3) 0).wellFormed = false := by decide

theorem test_wellFormed_second_operand : (Instr.add (.gpr 0) (.outOfRange 0)).wellFormed = false := by decide

theorem test_wellFormed_accepts : (Instr.storer (.gpr 7) (.outOfRange 8)).wellFormed = true := by decide

/-! ### Decoding, word by word, from R62 and R67 -/

theorem test_decode_load : decode [0x01, 0x07, 0xCD, 0xAB] = .ok (.load (.gpr 7) 0xABCD, []) := by decide

theorem test_decode_add : decode [0x02, 0x00, 0x01] = .ok (.add (.gpr 0) (.gpr 1), []) := by decide

theorem test_decode_sub : decode [0x03, 0x07, 0x02] = .ok (.sub (.gpr 7) (.gpr 2), []) := by decide

theorem test_decode_loadm : decode [0x04, 0x02, 0x01, 0x01, 0x12] = .ok (.loadm (.gpr 2) 0x0101, [0x12]) := by decide

theorem test_decode_store : decode [0x05, 0x06, 0x00, 0x20] = .ok (.store (.gpr 6) 0x2000, []) := by decide

theorem test_decode_jmp : decode [0x06, 0x34, 0x12] = .ok (.jmp 0x1234, []) := by decide

theorem test_decode_jz : decode [0x07, 0x10, 0x00] = .ok (.jz 0x0010, []) := by decide

theorem test_decode_print : decode [0x08, 0x04] = .ok (.print (.gpr 4), []) := by decide

theorem test_decode_cmp : decode [0x09, 0x02, 0x05] = .ok (.cmp (.gpr 2) (.gpr 5), []) := by decide

theorem test_decode_push : decode [0x0A, 0x03] = .ok (.push (.gpr 3), []) := by decide

theorem test_decode_pop : decode [0x0B, 0x05] = .ok (.pop (.gpr 5), []) := by decide

theorem test_decode_call : decode [0x0C, 0x00, 0x30] = .ok (.call 0x3000, []) := by decide

theorem test_decode_ret : decode [0x0D] = .ok (.ret, []) := by decide

theorem test_decode_in : decode [0x0E, 0x02] = .ok (.inp (.gpr 2), []) := by decide

theorem test_decode_out : decode [0x0F, 0x01] = .ok (.out (.gpr 1), []) := by decide

theorem test_decode_loadr : decode [0x10, 0x01, 0x06] = .ok (.loadr (.gpr 1) (.gpr 6), []) := by decide

theorem test_decode_storer : decode [0x11, 0x02, 0x05] = .ok (.storer (.gpr 2) (.gpr 5), []) := by decide

theorem test_decode_halt : decode [0x12] = .ok (.halt, []) := by decide

/-- R69: all 8 bits of a register byte take part. -/
theorem test_decode_out_of_range : decode [0x01, 0x80, 0xFF, 0xFF] = .ok (.load (.outOfRange 0x80) 0xFFFF, []) := by decide

/-- W8, V38. -/
theorem test_decode_illegal : decode [0x00] = .error (.illegalOpcode 0x00) ∧ decode [0x13] = .error (.illegalOpcode 0x13) := by
  decide

theorem test_decode_truncated : decode [0x01, 0x00, 0x00] = .error (.truncated .load) ∧ decode [] = .error .noBytes := by decide

/-- The table's `match` words of LOAD and HALT, and PUSH r3 with the first byte in bits 7 to 0. -/
theorem test_table_word :
    decodeTableWord 32 0x01000000 = some (.load (.gpr 0) 0) ∧ decodeTableWord 8 0x12 = some .halt ∧
      decodeTableWord 16 0x030A = some (.push (.gpr 3)) ∧ decodeTableWord 8 0x00 = none := by decide

/-- W8's byte and a table word, run as the first instruction after reset. -/
theorem test_fetch_word :
    after (step (State.reset.withFetchWord 24 0x06AB12)) State.pc = some 0x12AB ∧
      after (step (State.reset.withFetchWord 8 0x00)) State.outcome = some (some (.decodeError 0x00 0x0000)) := by decide

/-! ### One step each, from the vectors -/

/-- V1. -/
theorem test_load :
    after (step (boot [0x01, 0x07, 0xCD, 0xAB])) (fun t => (t.reg 7, t.pc, t.zeroFlag)) = some (0xABCD, 0x0004, false) := by
  decide

/-- V10. -/
theorem test_load_out_of_range :
    after (step (boot [0x01, 0x08, 0xFF, 0xFF])) (fun t => (t.regs, t.pc)) = some (State.reset.regs, 0x0004) := by decide

/-- V2. -/
theorem test_loadm :
    after (step ((boot [0x04, 0x02, 0x01, 0x01]).rawWrites 0x0101 [0x78, 0x56])) (fun t => t.reg 2) = some 0x5678 := by decide

/-- V3: the second byte is at address 0. -/
theorem test_loadm_wraps :
    after (step ((boot [0x04, 0x01, 0xFF, 0xFF]).rawWrite 0xFFFF 0xAA)) (fun t => t.reg 1) = some 0x04AA := by decide

/-- V4. -/
theorem test_store :
    after (step ((boot [0x05, 0x06, 0x00, 0x20]).setReg 6 0xBEEF)) (fun t => (t.readBytes 0x2000 2, t.pc)) =
      some ([0xEF, 0xBE], 0x0004) := by decide

/-- V5. -/
theorem test_store_wraps :
    after (step ((boot [0x05, 0x06, 0xFF, 0xFF]).setReg 6 0xBEEF)) (fun t => (t.readByte 0xFFFF, t.readByte 0)) =
      some (0xEF, 0xBE) := by decide

/-- V6. -/
theorem test_loadr_same_register :
    after (step (((boot [0x10, 0x01, 0x01]).rawWrites 0x0300 [0x11, 0x22]).setReg 1 0x0300)) (fun t => (t.reg 1, t.pc)) =
      some (0x2211, 0x0003) := by decide

/-- V7, and the operand order of C2. -/
theorem test_storer :
    after (step ((boot [0x11, 0x02, 0x02]).setReg 2 0x0400)) (fun t => t.readBytes 0x0400 2) = some [0x00, 0x04] ∧
      after (step (((boot [0x11, 0x02, 0x05]).setReg 2 0x1234).setReg 5 0x0500)) (fun t => t.readBytes 0x0500 2) =
        some [0x34, 0x12] := by decide

/-- V21: the flag is of the wrapped result. -/
theorem test_add_wraps :
    after (step (((boot [0x02, 0x00, 0x01]).setReg 0 0xFFFF).setReg 1 1)) (fun t => (t.reg 0, t.zeroFlag, t.pc)) =
      some (0x0000, true, 0x0003) := by decide

/-- V22. -/
theorem test_add_same_register :
    after (step ((boot [0x02, 0x00, 0x00]).setReg 0 0x8000)) (fun t => (t.reg 0, t.zeroFlag)) = some (0x0000, true) := by decide

/-- V23. -/
theorem test_sub_wraps :
    after (step ((boot [0x03, 0x00, 0x01]).setReg 1 1)) (fun t => (t.reg 0, t.zeroFlag)) = some (0xFFFF, false) := by decide

/-- V24. -/
theorem test_sub_same_register :
    after (step ((boot [0x03, 0x03, 0x03]).setReg 3 0x1234)) (fun t => (t.reg 3, t.zeroFlag)) = some (0x0000, true) := by decide

/-- V26. -/
theorem test_cmp_clears :
    after (step { ((boot [0x09, 0x02, 0x05]).setReg 2 0x1234).setReg 5 0x1235 with zeroFlag := true })
      (fun t => (t.zeroFlag, t.reg 2)) = some (false, 0x1234) := by decide

/-- V27. -/
theorem test_cmp_out_of_range :
    after (step (boot [0x09, 0x00, 0xFF])) (fun t => (t.zeroFlag, t.pc)) = some (false, 0x0003) := by decide

/-- V30. -/
theorem test_jmp : after (step (boot [0x06, 0x34, 0x12])) State.pc = some 0x1234 := by decide

/-- V31, V32. -/
theorem test_jz :
    after (step { boot [0x07, 0x34, 0x12] with zeroFlag := true }) (fun t => (t.pc, t.zeroFlag)) = some (0x1234, true) ∧
      after (step (boot [0x07, 0x34, 0x12])) State.pc = some 0x0003 := by decide

/-- V33. -/
theorem test_call :
    after (step { State.reset.rawWrites 4 [0x0C, 0x00, 0x30] with pc := 4 })
      (fun t => (t.readBytes 0xFFFE 2, t.sp, t.pc)) = some ([0x07, 0x00], 0xFFFC, 0x3000) := by decide

/-- V34. -/
theorem test_ret :
    after (step { (boot [0x0D]).rawWrites 0xFFFE [0x07] with sp := 0xFFFC }) (fun t => (t.sp, t.pc)) =
      some (0xFFFE, 0x0007) := by decide

/-- V35. -/
theorem test_ret_underflow :
    after (step (boot [0x0D])) (fun t => (t.sp, t.pc, t.outcome)) = some (0x0000, 0x000D, some .continued) := by decide

/-- V36. -/
theorem test_halt :
    after (step (boot [0x12])) (fun t => (t.running, t.pc, t.outcome)) = some (false, 0x0001, some .halted) := by decide

/-- V37. -/
theorem test_step_when_halted :
    after (step { boot [0x01] with running := false }) (fun t => (t.running, t.pc, t.outcome)) =
      some (false, 0x0000, some .halted) := by decide

/-- V39. -/
theorem test_decode_error :
    after (step (boot [0xFF])) (fun t => (t.running, t.pc, t.outcome)) =
      some (false, 0x0000, some (.decodeError 0xFF 0x0000)) := by decide

/-- V40. -/
theorem test_push :
    after (step ((boot [0x0A, 0x03]).setReg 3 0x1234)) (fun t => (t.readBytes 0xFFFE 2, t.sp, t.pc)) =
      some ([0x34, 0x12], 0xFFFC, 0x0002) := by decide

/-- V42. -/
theorem test_push_wraps :
    after (step { (boot [0x0A, 0x00]).setReg 0 0xA55A with sp := 0 }) (fun t => (t.readBytes 0 2, t.sp, t.pc)) =
      some ([0x5A, 0xA5], 0xFFFE, 0x0002) := by decide

/-- V41. -/
theorem test_pop :
    after (step { (boot [0x0B, 0x05]).rawWrites 0xFFFE [0x34, 0x12] with sp := 0xFFFC })
      (fun t => (t.reg 5, t.sp, t.readBytes 0xFFFE 2)) = some (0x1234, 0xFFFE, [0x34, 0x12]) := by decide

/-- V43. -/
theorem test_pop_out_of_range :
    after (step (boot [0x0B, 0x08])) (fun t => (t.sp, t.pc)) = some (0xFFFE, 0x0002) := by decide

/-- V50. -/
theorem test_print :
    after (step ((boot [0x08, 0x04]).setReg 4 0xFFFF)) (fun t => (t.diag, t.pc)) = some ([0xFFFF], 0x0002) := by decide

/-- V51, V52. -/
theorem test_in_interactive :
    after (step (boot [0x0E, 0x02])) (fun t => (t.outcome, t.pc)) = some (some .blocked, 0x0000) ∧
      after (step { boot [0x0E, 0x02] with inq := State.reset.inq.enqueue 0x41 })
        (fun t => (t.reg 2, t.inq.contents, t.pc)) = some (0x0041, [], 0x0002) := by decide

/-- V54, V55. -/
theorem test_in_headless :
    after (step { (boot [0x0E, 0x02]).setReg 2 0x7777 with interactive := false, hinEnded := true })
        (fun t => (t.reg 2, t.pc, t.outcome)) = some (0x7777, 0x0002, some .halted) ∧
      after (step { (boot [0x0E, 0x02]).setReg 2 0x7777 with interactive := false, hin := [0xFF] })
        (fun t => (t.reg 2, t.hin)) = some (0x00FF, []) := by decide

/-- V56. -/
theorem test_out_interactive :
    after (step ((boot [0x0F, 0x01]).setReg 1 0x1241)) (fun t => (t.readByte 0xF000, t.cursorCell, t.pc)) =
      some (0x41, (1, 0), 0x0002) := by decide

/-- V57. -/
theorem test_out_headless :
    after (step { (boot [0x0F, 0x01]).setReg 1 0x1241 with interactive := false })
      (fun t => (t.hout, t.readByte 0xF000, t.cursorCell)) = some ([0x41], 0x00, (0, 0)) := by decide

/-! ### The devices, from the vectors -/

/-- The store of V60: one entry `ab`. -/
def entryAb : DirEntry := { name := Vector.ofFn fun j => [0x61, 0x62].getD j.val 0, payload := [0xDE, 0xAD, 0xBE, 0xEF] }

/-- The memory of V60. -/
def diskMem : State := (State.reset.rawWrites 0x004D [0x61, 0x62]).rawWrites 0x005D [0xDE, 0xAD, 0xBE, 0xEF]

/-- V60. -/
theorem test_disk_write :
    (diskMem.diskCommand false 3 0x004D 0x005D 4).store = [entryAb] ∧
      (diskMem.diskCommand false 3 0x004D 0x005D 4).mem = diskMem.mem := by decide

/-- V61. -/
theorem test_disk_read :
    let t := State.diskCommand { diskMem with store := [entryAb] } false 2 0x004D 0x0300 0
    t.readBytes 0x0300 4 = [0xDE, 0xAD, 0xBE, 0xEF] ∧ t.readBytes 0xE006 2 = [0x04, 0x00] := by decide

/-- V63. -/
theorem test_disk_list :
    (State.diskCommand { diskMem with store := [entryAb] } false 1 0 0x0400 0).readBytes 0x0400 18 =
      [0x61, 0x62, 0, 0, 0, 0, 0, 0, 0, 0, 0, 0, 0, 0, 0, 0, 0x0A, 0x00] := by decide

/-- V66: the 16th name byte is dropped. -/
theorem test_disk_name :
    ((State.reset.rawWrites 0x1000
        [0x41, 0x42, 0x43, 0x44, 0x45, 0x46, 0x47, 0x48, 0x49, 0x4A, 0x4B, 0x4C, 0x4D, 0x4E, 0x4F, 0x50]).nameKey 0x1000).toList =
      [0x41, 0x42, 0x43, 0x44, 0x45, 0x46, 0x47, 0x48, 0x49, 0x4A, 0x4B, 0x4C, 0x4D, 0x4E, 0x4F, 0x00] := by decide

/-- V71. -/
theorem test_console_backspace :
    let t := [0x41, 0x42, 0x08, 0x43].foldl State.putChar State.reset
    t.readBytes 0xF000 3 = [0x41, 0x43, 0x00] ∧ t.cursorCell = (2, 0) := by decide

/-- V73. -/
theorem test_console_backspace_to_previous_row :
    (State.putChar { State.reset with curY := 1 } 0x08).cursorCell = (79, 0) := by decide

/-- V74. -/
theorem test_console_return :
    let t := [0x41, 0x42, 0x0D, 0x43].foldl State.putChar State.reset
    t.readBytes 0xF000 2 = [0x43, 0x42] ∧ t.cursorCell = (1, 0) := by decide

/-- The start of V76. -/
def lastCell : State := { State.reset.rawWrite 0xF050 0x59 with curX := 79, curY := 29 }

/-- V76: old row 1 becomes row 0, the cursor goes to (0, 29). -/
theorem test_console_scroll :
    (lastCell.putChar 0x58).readByte 0xF000 = 0x59 ∧ (lastCell.putChar 0x58).curX = 0 ∧ (lastCell.putChar 0x58).curY = 29 := by
  have hy : (lastCell.consoleWrite 0x58).curY = Config.displayRows := by decide
  have hl := State.length_scrolledDisplay (lastCell.consoleWrite 0x58)
  rw [State.putChar_other _ _ (by decide) (by decide) (by decide)]
  refine ⟨?_, ?_, State.consoleScroll_curY_of_past _ hy⟩
  · refine (State.readByte_consoleScroll_cell _ hy (by decide) 0 (by omega)).trans ?_
    refine (State.scrolledDisplay_moved _ 0 0 (by decide) (by decide) (by omega)).trans ?_
    decide
  · rw [State.consoleScroll_curX]
    decide

/-- V81. -/
theorem test_queue_order :
    let q := (State.reset.inq.enqueue 0x11).enqueue 0x22
    q.contents = [0x11, 0x22] ∧ q.head = 0 ∧ q.tail = 2 := by decide

/-- R175: no codes in headless mode. -/
theorem test_enqueue_headless :
    (match (State.initialize false []).enqueue 0x41 with
      | .refused .enqueueHeadless => true
      | _ => false) = true := by decide

/-- R184, U17: a second load and a load after a step are refused. -/
theorem test_load_once :
    (match State.reset.load [0x12] with
      | .next t => decide (t.loaded = true ∧ t.readByte 0 = 0x12) && (match t.load [0x12] with
        | .refused .loadNotAdmitted => true
        | _ => false)
      | _ => false) = true ∧
    (match step (boot [0x12]) with
      | .next t => (match t.load [0x12] with
        | .refused .loadNotAdmitted => true
        | _ => false)
      | _ => false) = true := by decide

/-- V92: an image of 65537 bytes is a load error. -/
theorem test_load_too_large : State.reset.load (List.replicate 65537 0x12) = .fault (.loadError 65537) :=
  (State.load_of_too_large _ _ rfl rfl (by rw [List.length_replicate]; decide)).trans (by rw [List.length_replicate])

/-- R175: no bytes on `HIN` in interactive mode. -/
theorem test_supply_interactive :
    (match State.reset.supplyHin 0x41 with
      | .refused .inputInteractive => true
      | _ => false) = true ∧
    (match State.reset.endHin with
      | .refused .inputInteractive => true
      | _ => false) = true := by decide

/-! ### Witnesses: states that meet the hypotheses of the obligations -/

theorem witness_DecodeOfEncode :
    (Instr.store (.gpr 7) 0xFFFF).wellFormed = true ∧ (Instr.load (.outOfRange 8) 0).wellFormed = true ∧
      (Instr.cmp (.outOfRange 0xFF) (.gpr 0)).wellFormed = true := by decide

theorem witness_DecodedInstruction : decode [0x0A, 0x08, 0x77] = .ok (.push (.outOfRange 8), [0x77]) := by decide

theorem witness_LoadPlacesTheImage :
    State.reset.mem.wf = true ∧ State.reset.loaded = false ∧ State.reset.outcome = none ∧
      State.loaded { State.reset with loaded := true } = true ∧
      State.outcome { State.reset with outcome := some .blocked } ≠ none ∧ (List.replicate 65536 (0x12 : Byte)).length ≤ 65536 ∧
      65536 < (List.replicate 65537 (0x12 : Byte)).length ∧ ([0x12] : List Byte).length ≤ (0x0001#16).toNat := by
  simp only [List.length_replicate]
  decide

/-- A load, a step, and the host's other operations after them. -/
theorem witness_LoadIsAdmittedOnce :
    ([0x12] : List Byte).length ≤ 65536 ∧ (∃ t, State.reset.load [0x12] = .next t) ∧
      (∃ t u, step (boot [0x06]) = .next t ∧ Relation.ReflTransGen HostStep t u ∧ u.inq ≠ t.inq) ∧
      (∃ t u, State.reset.load [0x06] = .next t ∧ Relation.ReflTransGen HostStep t u ∧ u.outcome ≠ none) :=
  ⟨by decide, ⟨_, rfl⟩,
    ⟨_, _, rfl, .single (.inr (.inr (.inl ⟨0x41, rfl⟩))), by decide⟩,
    ⟨_, _, rfl, .single (.inl rfl), by decide⟩⟩

theorem witness_StepRunsTheDecodedInstruction :
    (boot [0x12]).running = true ∧
      decode ((boot [0x12]).readBytes (boot [0x12]).pc 4) = .ok (.halt, [0x00, 0x00, 0x00]) := by decide

theorem witness_IllegalOpcode :
    State.reset.running = true ∧ (State.reset.readByte State.reset.pc).toNat = 0 ∧ (boot [0x13]).running = true ∧
      0x13 ≤ ((boot [0x13]).readByte (boot [0x13]).pc).toNat := by decide

theorem witness_StoppedMachine : State.running { State.reset with running := false } = false := by decide

/-- A halt by each of the three ways, a blocked `IN`, a decode error. -/
theorem witness_StepOutcome :
    after (step { State.reset with running := false }) State.outcome = some (some .halted) ∧
      after (step (boot [0x12])) State.outcome = some (some .halted) ∧
      after (step { boot [0x0E, 0x07] with interactive := false, hinEnded := true }) State.outcome =
        some (some .halted) ∧
      after (step (boot [0x0E, 0x00])) State.outcome = some (some .blocked) ∧
      after (step State.reset) State.outcome = some (some (.decodeError 0 0)) := by decide

/-- The last cell of the grid is a cursor the invariant admits, and a step from it completes. -/
theorem witness_StepKeepsTheInvariant :
    ∃ s t : State, s.Inv ∧ step s = .next t ∧ s.curX = 79 ∧ s.curY = 29 :=
  ⟨{ boot [0x12] with curX := 79, curY := 29 }, _, ⟨by decide, by decide, by decide⟩, rfl, rfl, rfl⟩

theorem witness_RunningIsCleared :
    after (step { State.reset with running := false }) State.running = some false ∧
      after (step (boot [0x12])) State.running = some false ∧ after (step (boot [0x13])) State.running = some false ∧
      after (step { boot [0x0E, 0x00] with interactive := false, hinEnded := true }) State.running = some false ∧
      after (step (boot [0x06])) State.running = some true := by decide

theorem witness_NoStepChangesTheMode :
    after (step { boot [0x0D] with interactive := false }) State.interactive = some false := by decide

theorem witness_OnlyInAndOutSeeTheMode :
    Instr.mnemonic .ret ≠ .inp ∧ Instr.mnemonic .ret ≠ .out ∧ ∃ t, exec .ret State.reset = .next t :=
  ⟨by decide, by decide, _, rfl⟩

theorem witness_OnlyArithmeticWritesTheFlag :
    after (step (boot [0x02, 0x07, 0x07])) State.zeroFlag = some true ∧
      after (step (boot [0x03, 0x00, 0x00])) State.zeroFlag = some true ∧
      after (step (boot [0x09, 0x00, 0x07])) State.zeroFlag = some true ∧ State.reset.zeroFlag = false := by decide

theorem witness_OnlyStackInstructionsMoveSp :
    after (step (boot [0x0A, 0x00])) State.sp = some 0xFFFC ∧ after (step (boot [0x0C])) State.sp = some 0xFFFC ∧
      after (step (boot [0x0B, 0x07])) State.sp = some 0x0000 ∧ after (step (boot [0x0D])) State.sp = some 0x0000 := by decide

theorem witness_OnlyStoresAndConsoleWriteMemory :
    after (step ((boot [0x05, 0x00, 0x00, 0x20]).setReg 0 1)) (fun t => t.mem.length) = some 3 ∧
      after (step ((boot [0x0F, 0x00]).setReg 0 0x41)) (fun t => t.mem.length) = some 2 ∧
      (boot [0x0F, 0x00]).mem.length = 1 := by decide

theorem witness_DiskStoreOnlyGrows :
    State.reset.store.length < 65535 ∧ ∃ t, step (boot [0x12]) = .next t := ⟨by decide, _, rfl⟩

theorem witness_OutOfRangeOperand :
    (∃ b, RegOperand.outOfRange b ∈ (Instr.loadr (.gpr 0) (.outOfRange 8)).regOperands) ∧
      ∃ b, RegOperand.outOfRange b ∈ (Instr.loadr (.outOfRange 0xFF) (.gpr 7)).regOperands :=
  ⟨⟨8, by decide⟩, 0xFF, by decide⟩

/-- One store by each of the four instructions, next to the two addresses that dispatch and at the top of memory. -/
theorem witness_EngineStoreWritesItsTwoBytes :
    State.reset.mem.wf = true ∧ engineStore? (.store (.gpr 7) 0xE001) State.reset = some (0xE001, 0) ∧
      engineStore? (.storer (.gpr 1) (.gpr 0)) (State.reset.setReg 0 0xDFFE) = some (0xDFFE, 0) ∧
      engineStore? (.push (.gpr 0)) { State.reset with sp := 0xFFFF } = some (0xFFFF, 0) ∧
      engineStore? (.call 0x1234) State.reset = some (0xFFFE, 3) := by decide

theorem witness_EngineStoreDispatches :
    State.reset.mem.wf = true ∧ engineStore? (.store (.gpr 0) 0xE000) State.reset = some (0xE000, 0) ∧
      engineStore? (.storer (.gpr 1) (.gpr 0)) (State.reset.setReg 0 0xDFFF) = some (0xDFFF, 0) ∧
      engineStore? (.push (.gpr 0)) { State.reset with sp := 0xE000 } = some (0xE000, 0) ∧
      engineStore? (.call 0x1234) { State.reset with sp := 0xDFFF } = some (0xDFFF, 3) := by decide

/-- The next step after the `JMP` meets the byte `0x00` at the target. -/
theorem witness_Jmp :
    (boot [0x06, 0xFF, 0xFF]).running = true ∧ mnemonicOf? ((boot [0x06, 0xFF, 0xFF]).readByte 0xFFFF) = none := by decide

theorem witness_Jz : State.reset.zeroFlag = false ∧ State.zeroFlag { State.reset with zeroFlag := true } = true := by decide

theorem witness_RetAfterCall_and_PopAfterPush :
    State.reset.mem.wf = true ∧ State.reset.sp ≠ 0xE000#16 ∧ State.reset.sp ≠ 0xDFFF#16 := by decide

/-- A full queue that has wrapped once around, and an empty one. -/
theorem witness_InteractiveIn :
    State.reset.interactive = true ∧ State.reset.inq.contents = [] ∧
      InputQueue.contents { State.reset.inq with head := 63, tail := 1 } = [0, 0] := by decide

theorem witness_HeadlessIn :
    (State.initialize false []).interactive = false ∧ (State.initialize false []).hin = [] ∧
      (State.initialize false []).hinEnded = false ∧ after (State.initialize false []).endHin State.hinEnded = some true ∧
      after ((State.initialize false []).supplyHin 0xFF) State.hin = some [0xFF] := by decide

theorem witness_OutPassesTheLowByte :
    State.reset.Inv ∧ State.Inv { State.initialize false [] with curX := 79, curY := 29 } ∧
      State.reset.interactive = true ∧ (State.initialize false []).interactive = false :=
  ⟨⟨by decide, by decide, by decide⟩, ⟨by decide, by decide, by decide⟩, rfl, rfl⟩

theorem witness_BlockedIn :
    (boot [0x0E, 0x07]).running = true ∧ (boot [0x0E, 0x07]).interactive = true ∧
      (boot [0x0E, 0x07]).inq.head = (boot [0x0E, 0x07]).inq.tail ∧
      (boot [0x0E, 0x07]).fetch = .ok (.inp (.gpr 7)) := by decide

/-- The cursor places of the clauses of `ControlBytesMoveTheCursor`. -/
theorem witness_ControlBytes :
    State.reset.curY < 29 ∧ State.reset.curX = 0 ∧ State.reset.curY = 0 ∧
      State.curY { State.reset with curX := 79, curY := 29 } = 29 ∧ 0 < State.curX { State.reset with curX := 79, curY := 29 } ∧
      0 < State.curY { State.reset with curY := 1 } ∧ State.curX { State.reset with curY := 1 } = 0 := by decide

/-- Cursors at columns 78 and 79, the latter on rows 28 and 29; the byte `0x09` is no control byte here. -/
theorem witness_OtherBytes :
    State.Inv { State.reset with curX := 78, curY := 29 } ∧ State.Inv { State.reset with curX := 79, curY := 28 } ∧
      State.Inv { State.reset with curX := 79, curY := 29 } ∧ (0x09#8 ≠ 0x0A#8 ∧ 0x09#8 ≠ 0x0D#8 ∧ 0x09#8 ≠ 0x08#8) :=
  ⟨⟨by decide, by decide, by decide⟩, ⟨by decide, by decide, by decide⟩, ⟨by decide, by decide, by decide⟩, by decide⟩

theorem witness_Scroll :
    State.reset.mem.wf = true ∧ State.reset.curY ≠ 30 ∧ State.curY { State.reset with curY := 30 } = 30 := by decide

theorem witness_EightyOneCharacters :
    State.reset.mem.wf = true ∧ State.reset.curX = 0 ∧ State.reset.curY < 29 ∧
      (List.replicate 81 (0x41 : Byte)).length = 81 ∧
      ∀ c ∈ List.replicate 81 (0x41 : Byte), c ≠ 0x0A#8 ∧ c ≠ 0x0D#8 ∧ c ≠ 0x08#8 := by
  refine ⟨by decide, rfl, by decide, List.length_replicate, fun c hc => ?_⟩
  rw [List.eq_of_mem_replicate hc]
  decide

theorem witness_DroppedOrUnknownCommand : (0x00#8 ≠ 1#8 ∧ 0x00#8 ≠ 2#8 ∧ 0x00#8 ≠ 3#8) ∧ (4#8 ≠ 1#8 ∧ 4#8 ≠ 2#8 ∧ 4#8 ≠ 3#8) := by
  decide

theorem witness_List :
    diskMem.mem.wf = true ∧ 0 < [entryAb].length ∧ 17 * [entryAb].length < 17 * 0 + 0 + 65536 := by decide

/-- A key with a match after an entry that is none, and one without a match. -/
theorem witness_ReadByName :
    diskMem.mem.wf = true ∧
      (∀ j (h : j < 16), (diskMem.nameKey 0x004D)[j] = if j < 15 then diskMem.readByte (0x004D + BitVec.ofNat 16 j) else 0x00#8) ∧
      entryAb.name = diskMem.nameKey 0x004D ∧ ({ entryAb with name := Vector.replicate 16 0 } : DirEntry).name ≠ entryAb.name := by
  refine ⟨by decide, fun j h => ?_, by decide, by decide⟩
  simp [State.nameKey, add16]

theorem witness_WriteByName : State.reset.store.length < 65535 ∧ State.reset.store = [] ∧ State.reset.mem.wf = true := by decide

theorem witness_ReadAfterWrite :
    State.reset.mem.wf = true ∧ State.reset.store = [] ∧ 65534 < (0xFFFF#16).toNat ∧
      0x0000#16 + BitVec.ofNat 16 65534 ≠ 0xE006#16 ∧ 0x0000#16 + BitVec.ofNat 16 65534 ≠ 0xE007#16 := by decide

theorem witness_DeviceWrites : (2#8 ≠ 3#8) ∧ ∃ t, State.reset.load [0xFF] = .next t := ⟨by decide, _, rfl⟩

/-- 62 codes pending, and two that lie around the end of the ring. -/
theorem witness_Queue :
    State.reset.interactive = true ∧
      InputQueue.contents { State.reset.inq with head := 2, tail := 0 } ≠ [] ∧
      (InputQueue.contents { State.reset.inq with head := 2, tail := 0 }).length < 63 ∧
      InputQueue.contents { State.reset.inq with head := 63, tail := 1, buf := State.reset.inq.buf.set 63 0x41 } =
        [0x41, 0x00] := by decide

end Sys2Proof.Tests
end

section
/-! PROOFS. `LOAD` (spec/40_data_transfer.md rule R80), from the frame of an instruction that moves on and writes one
register. -/

namespace Sys2Proof.Machine

/-! ### The frame of one register write -/

theorem regsSameBut_setReg_advance (s : State) (m : Mnemonic) (r : Fin 8) (v : Word) :
    RegsSameBut [r] s ((s.advance m).setReg r v) :=
  regsSameBut_of_set s _ r v (by rw [State.setReg_regs, State.advance_regs])

theorem controlSame_setReg_advance (s : State) (m : Mnemonic) (r : Fin 8) (v : Word) :
    ControlSame s ((s.advance m).setReg r v) := by
  simp [ControlSame]

theorem memSame_setReg_advance (s : State) (m : Mnemonic) (r : Fin 8) (v : Word) :
    MemSame s ((s.advance m).setReg r v) := by
  intro a
  rw [State.readByte_setReg, State.readByte_advance]

theorem devicesSame_setReg_advance (s : State) (m : Mnemonic) (r : Fin 8) (v : Word) :
    DevicesSame s ((s.advance m).setReg r v) := by
  simp [DevicesSame, DiskSame, QueueSame, CursorSame, HinSame, HoutSame, DiagSame]

/-! ### `LOAD` -/

/-- Opcode, register byte, immediate low byte first (R61, R62). -/
theorem encode_load (r : Fin 8) (imm : Word) :
    encode (.load (.gpr r) imm) =
      [0x01#8, BitVec.ofNat 8 r.val, imm.extractLsb' 0 8, imm.extractLsb' 8 8] := by
  simp [encode, Config.opc, regBytes_eq, regByte, wordBytes, lowByte, highByte]

theorem advance_load_pc (s : State) : (s.advance .load).pc = s.pc + 4 := rfl

/-- Settles O23: the next state is `s` moved past the instruction with `r` written, and its frame is that of one register
write. -/
theorem loadWritesItsImmediate : Obligations.LoadWritesItsImmediate := by
  intro s r imm
  have hreg : ((s.advance .load).setReg r imm).reg r = imm := State.reg_setReg_self _ r imm
  have hpc : ((s.advance .load).setReg r imm).pc = s.pc + 4 := by rw [State.setReg_pc, advance_load_pc]
  exact ⟨encode_load r imm, (s.advance .load).setReg r imm, exec_load r imm s, hreg, hpc, by simp,
    regsSameBut_setReg_advance s .load r imm, by simp, by simp, controlSame_setReg_advance s .load r imm,
    memSame_setReg_advance s .load r imm, devicesSame_setReg_advance s .load r imm⟩

end Sys2Proof.Machine
end

section
/-! PROOFS. `ADD`, `SUB` and `CMP` (spec/41_arithmetic_compare.md rules R90 to R92). `ADD` and `SUB` write a result to their
first register and set the flag from it; `CMP` sets the flag as `SUB` would and writes no register. -/

namespace Sys2Proof.Machine

/-! ### Setting the flag -/

/-- `CMP` gives the flag value `SUB` would (R92). -/
theorem State.setZeroEq_eq_setZeroOf_sub (s : State) (a b : Word) : s.setZeroEq a b = s.setZeroOf (a - b) := by
  have hflag : decide (a = b) = decide (a - b = 0#16) := decide_eq_decide.mpr sub_eq_zero.symm
  rw [State.setZeroEq, State.setZeroOf, hflag]

theorem State.setZeroOf_zeroFlag_iff (s : State) (v : Word) : (s.setZeroOf v).zeroFlag = true ↔ v = 0 := by
  rw [State.setZeroOf_zeroFlag, decide_eq_true_iff, BitVec.ofNat_eq_ofNat]

theorem State.setZeroOf_sub_zeroFlag_iff (s : State) (a b : Word) :
    (s.setZeroOf (a - b)).zeroFlag = true ↔ a = b := by
  rw [State.setZeroOf_zeroFlag_iff, sub_eq_zero]

@[simp] theorem State.reg_setZeroOf (s : State) (v : Word) (r : Fin 8) : (s.setZeroOf v).reg r = s.reg r := rfl

theorem regsSameBut_setZeroOf (rs : List (Fin 8)) (s t : State) (v : Word) :
    RegsSameBut rs s (t.setZeroOf v) ↔ RegsSameBut rs s t := Iff.rfl

theorem controlSame_setZeroOf (s t : State) (v : Word) : ControlSame s (t.setZeroOf v) ↔ ControlSame s t := Iff.rfl

theorem memSame_setZeroOf (s t : State) (v : Word) : MemSame s (t.setZeroOf v) ↔ MemSame s t := Iff.rfl

theorem devicesSame_setZeroOf (s t : State) (v : Word) : DevicesSame s (t.setZeroOf v) ↔ DevicesSame s t := Iff.rfl

/-! ### The frames of a result with its flag, and of the flag alone -/

theorem frame_setZeroOf_setReg_advance (s : State) (m : Mnemonic) (r : Fin 8) (v w : Word) (t : State)
    (ht : t = ((s.advance m).setReg r v).setZeroOf w) :
    t.outcome = some .continued ∧ RegsSameBut [r] s t ∧ t.sp = s.sp ∧ ControlSame s t ∧ MemSame s t ∧
      DevicesSame s t := by
  subst ht
  exact ⟨by simp, (regsSameBut_setZeroOf ..).mpr (regsSameBut_setReg_advance s m r v), by simp,
    (controlSame_setZeroOf ..).mpr (controlSame_setReg_advance s m r v),
    (memSame_setZeroOf ..).mpr (memSame_setReg_advance s m r v),
    (devicesSame_setZeroOf ..).mpr (devicesSame_setReg_advance s m r v)⟩

theorem frame_setZeroOf_advance (s : State) (m : Mnemonic) (w : Word) (t : State)
    (ht : t = (s.advance m).setZeroOf w) :
    t.outcome = some .continued ∧ RegsSameBut [] s t ∧ t.sp = s.sp ∧ ControlSame s t ∧ MemSame s t ∧
      DevicesSame s t := by
  subst ht
  have hregs : RegsSameBut [] s ((s.advance m).setZeroOf w) := fun q _ => by
    rw [State.reg_setZeroOf, State.reg_advance]
  have hmem : MemSame s ((s.advance m).setZeroOf w) := (memSame_setZeroOf ..).mpr (State.readByte_advance s m)
  exact ⟨by simp, hregs, by simp, by simp [ControlSame], hmem,
    by simp [DevicesSame, DiskSame, QueueSame, CursorSame, HinSame, HoutSame, DiagSame]⟩

/-! ### Two register operands -/

/-- An instruction with two register operands takes three bytes (R62). -/
theorem State.advance_pc_of_format_rr (s : State) (m : Mnemonic) (h : m.format = .rr) :
    (s.advance m).pc = s.pc + 3 := by
  rw [State.advance_pc, Mnemonic.length, h]
  rfl

/-- Opcode, then the two register bytes (R61, R62). -/
theorem encode_add (a b : Fin 8) :
    encode (.add (.gpr a) (.gpr b)) = [0x02#8, BitVec.ofNat 8 a.val, BitVec.ofNat 8 b.val] := by
  simp [encode, Config.opc, regBytes_eq, regByte]

/-- Opcode, then the two register bytes (R61, R62). -/
theorem encode_sub (a b : Fin 8) :
    encode (.sub (.gpr a) (.gpr b)) = [0x03#8, BitVec.ofNat 8 a.val, BitVec.ofNat 8 b.val] := by
  simp [encode, Config.opc, regBytes_eq, regByte]

/-- Opcode, then the two register bytes (R61, R62). -/
theorem encode_cmp (a b : Fin 8) :
    encode (.cmp (.gpr a) (.gpr b)) = [0x09#8, BitVec.ofNat 8 a.val, BitVec.ofNat 8 b.val] := by
  simp [encode, Config.opc, regBytes_eq, regByte]

/-! ### The wrapped results as numbers (R8) -/

theorem word_sub_toNat (x y : Word) : (x - y).toNat = (x.toNat + 65536 - y.toNat) % 65536 := by
  rw [BitVec.toNat_sub]
  omega

theorem word_add_eq_zero_iff (x y : Word) : x + y = 0 ↔ (x.toNat + y.toNat) % 65536 = 0 := by
  rw [← BitVec.toNat_inj, BitVec.toNat_add]
  rfl

/-! ### `ADD`, `SUB`, `CMP` -/

/-- Settles O28: the flag is set from the wrapped sum that the first register takes. -/
theorem addWrapsAndSetsTheFlag : Obligations.AddWrapsAndSetsTheFlag := by
  intro s a b
  refine ⟨encode_add a b, _, exec_add a b s, ?sum, ?flag, ?pc, frame_setZeroOf_setReg_advance s .add a _ _ _ rfl⟩
  case sum => rw [State.reg_setZeroOf, State.reg_setReg_self, BitVec.toNat_add]
  case flag => rw [State.setZeroOf_zeroFlag_iff, word_add_eq_zero_iff]
  case pc => exact State.advance_pc_of_format_rr s .add rfl

/-- Settles O29: the flag is set from the wrapped difference, which is 0 exactly on equal operands. -/
theorem subWrapsAndSetsTheFlag : Obligations.SubWrapsAndSetsTheFlag := by
  intro s a b
  refine ⟨encode_sub a b, _, exec_sub a b s, ?difference, ?zero, ?equal, ?pc,
    frame_setZeroOf_setReg_advance s .sub a _ _ _ rfl⟩
  case difference => rw [State.reg_setZeroOf, State.reg_setReg_self, word_sub_toNat]
  case zero => rw [State.reg_setZeroOf, State.reg_setReg_self, State.setZeroOf_zeroFlag_iff]
  case equal => exact State.setZeroOf_sub_zeroFlag_iff ..
  case pc => exact State.advance_pc_of_format_rr s .sub rfl

/-- Settles O30: the next state is `s` moved past the instruction with the flag of the difference. -/
theorem cmpSetsTheFlagOnEquality : Obligations.CmpSetsTheFlagOnEquality := by
  intro s a b
  have hexec : exec (.cmp (.gpr a) (.gpr b)) s = .next ((s.advance .cmp).setZeroOf (s.reg a - s.reg b)) := by
    rw [exec_cmp, State.setZeroEq_eq_setZeroOf_sub]
  refine ⟨encode_cmp a b, _, hexec, ?equal, ?pc, frame_setZeroOf_advance s .cmp _ _ rfl⟩
  case equal => exact State.setZeroOf_sub_zeroFlag_iff ..
  case pc => exact State.advance_pc_of_format_rr s .cmp rfl

end Sys2Proof.Machine
end

section
/-! PROOFS. `JMP` and `JZ` (spec/42_control_flow.md rules R100 and R101). Both leave `s` moved past the instruction with only
`pc` decided anew: by `JMP` always, by `JZ` from the flag. -/

namespace Sys2Proof.Machine

/-! ### The frame of a jump -/

theorem frame_advance_setPc (s : State) (m : Mnemonic) (a : Word) (t : State) (ht : t = { s.advance m with pc := a }) :
    t.outcome = some .continued ∧ RegsSameBut [] s t ∧ t.sp = s.sp ∧ t.zeroFlag = s.zeroFlag ∧ ControlSame s t ∧
      MemSame s t ∧ DevicesSame s t := by
  subst ht
  have hregs : RegsSameBut [] s { s.advance m with pc := a } := fun r _ => State.reg_advance s m r
  have hmem : MemSame s { s.advance m with pc := a } := State.readByte_advance s m
  exact ⟨by simp, hregs, by simp, by simp, by simp [ControlSame], hmem,
    by simp [DevicesSame, DiskSame, QueueSame, CursorSame, HinSame, HoutSame, DiagSame]⟩

/-! ### A 16-bit address operand -/

/-- An instruction with an address operand takes three bytes (R62). -/
theorem State.advance_pc_of_format_a (s : State) (m : Mnemonic) (h : m.format = .a) : (s.advance m).pc = s.pc + 3 := by
  rw [State.advance_pc, Mnemonic.length, h]
  rfl

/-- Opcode, then the address low byte first (R30, R62). -/
theorem encode_jmp (a : Word) : encode (.jmp a) = [0x06#8, a.extractLsb' 0 8, a.extractLsb' 8 8] := by
  simp [encode, Config.opc, wordBytes, lowByte, highByte]

/-- Opcode, then the address low byte first (R30, R62). -/
theorem encode_jz (a : Word) : encode (.jz a) = [0x07#8, a.extractLsb' 0 8, a.extractLsb' 8 8] := by
  simp [encode, Config.opc, wordBytes, lowByte, highByte]

/-! ### A step at a byte that is no opcode -/

/-- The byte is reported with its own address (R133). -/
theorem step_of_no_opcode (s : State) (hr : s.running = true) (hop : mnemonicOf? (s.readByte s.pc) = none) :
    step s = .next (s.raiseDecodeError (s.readByte s.pc) s.pc) :=
  step_of_fetch_error s _ hr ((State.fetch_eq_error s _).mpr ⟨rfl, hop⟩)

/-! ### `JMP`, `JZ` -/

/-- Taken and not taken, `JZ` decides `pc` and nothing else (R101). -/
theorem exec_jz_eq_setPc (a : Word) (s : State) :
    exec (.jz a) s = .next { s.advance .jz with pc := if s.zeroFlag then a else s.pc + 3 } := by
  rw [exec_jz, ← State.advance_pc_of_format_a s .jz rfl]
  cases s.zeroFlag <;> rfl

/-- Settles O31: memory and `running` are as before the jump, so a step at the target meets the byte that lay there. -/
theorem jmpSetsPc : Obligations.JmpSetsPc := by
  intro s a
  obtain ⟨houtcome, hregs, hsp, hflag, hcontrol, hmem, hdevices⟩ := frame_advance_setPc s .jmp a _ rfl
  refine ⟨encode_jmp a, _, exec_jmp a s, rfl, houtcome, hregs, hsp, hflag, hcontrol, hmem, hdevices, fun hr hop => ?_⟩
  rw [← hmem a] at hop ⊢
  exact ⟨_, step_of_no_opcode { s.advance .jmp with pc := a } hr hop, State.raiseDecodeError_outcome ..⟩

/-- Settles O32: both ways are one jump, to the address that the flag chooses. -/
theorem jzJumpsWhenTheFlagIsSet : Obligations.JzJumpsWhenTheFlagIsSet := by
  intro s a
  exact ⟨encode_jz a, _, exec_jz_eq_setPc a s, fun hz => if_pos hz, fun hz => if_neg (by simp [hz]),
    frame_advance_setPc s .jz _ _ rfl⟩

end Sys2Proof.Machine
end

section
/-! PROOFS. `PRINT` (spec/44_io.md rule R121): `s` moved past the instruction with only the diagnostic stream written. -/

namespace Sys2Proof.Machine

/-! ### The frame of a write on `DIAG` -/

theorem frame_advance_setDiag (s : State) (m : Mnemonic) (d : List Word) (t : State)
    (ht : t = { s.advance m with diag := d }) :
    t.outcome = some .continued ∧ RegsSameBut [] s t ∧ t.sp = s.sp ∧ t.zeroFlag = s.zeroFlag ∧ ControlSame s t ∧
      MemSame s t ∧ DiskSame s t ∧ QueueSame s t ∧ CursorSame s t ∧ HinSame s t ∧ HoutSame s t := by
  subst ht
  have hregs : RegsSameBut [] s { s.advance m with diag := d } := fun r _ => State.reg_advance s m r
  have hmem : MemSame s { s.advance m with diag := d } := State.readByte_advance s m
  exact ⟨by simp, hregs, by simp, by simp, by simp [ControlSame], hmem, by simp [DiskSame], by simp [QueueSame],
    by simp [CursorSame], by simp [HinSame], by simp [HoutSame]⟩

/-! ### One register operand -/

/-- An instruction with one register operand takes two bytes (R62). -/
theorem State.advance_pc_of_format_r (s : State) (m : Mnemonic) (h : m.format = .r) : (s.advance m).pc = s.pc + 2 := by
  rw [State.advance_pc, Mnemonic.length, h]
  rfl

/-- Opcode, then the register byte (R61, R62). -/
theorem encode_print (r : Fin 8) : encode (.print (.gpr r)) = [0x08#8, BitVec.ofNat 8 r.val] := by
  simp [encode, Config.opc, regBytes_eq, regByte]

/-! ### `PRINT` -/

/-- Settles O38: the mode is not looked at, so the one next state that `exec_print` gives serves both. -/
theorem printEmitsTheValue : Obligations.PrintEmitsTheValue := by
  intro s r
  exact ⟨encode_print r, _, exec_print r s, rfl, State.advance_pc_of_format_r s .print rfl,
    frame_advance_setDiag s .print _ _ rfl⟩

end Sys2Proof.Machine
end

section
/-! PROOFS. The host's load (spec/60_exceptions.md rule R175, the spec's decision D24): a load or a step that answers closes it, and
nothing the host does opens it again. -/

namespace Sys2Proof.Machine

/-- An image is loaded or a step has been taken, so no load is admitted any more (D24). -/
def State.LoadClosed (s : State) : Prop := s.loaded = true ∨ s.outcome ≠ none

/-- An instruction that answers leaves its outcome (R130). -/
theorem exec_outcome_ne_none (i : Instr) (s t : State) (h : exec i s = .next t) : t.outcome ≠ none := by
  apply exec_elim (P := fun _ t => t.outcome ≠ none) (h := h)
  case jz => intro a; cases s.zeroFlag <;> simp
  all_goals intros; simp

/-- A step that answers leaves its outcome (R130). -/
theorem step_outcome_ne_none (s t : State) (h : step s = .next t) : t.outcome ≠ none := by
  obtain ⟨-, rfl⟩ | ⟨-, op, -, rfl⟩ | ⟨-, i, -, hi⟩ := step_cases s t h
  · simp
  · simp
  · exact exec_outcome_ne_none i s t hi

theorem State.loadClosed_of_step (s t : State) (h : step s = .next t) : t.LoadClosed :=
  .inr (step_outcome_ne_none s t h)

theorem State.loadClosed_of_load (s t : State) (image : List Byte) (h : s.load image = .next t) : t.LoadClosed := by
  obtain ⟨-, -, -, rfl⟩ := State.load_cases s t image h
  exact .inl rfl

/-- The queue and the input stream have no part in it, and a step or a load closes it anew. -/
theorem State.LoadClosed.of_hostStep {s t : State} (hs : s.LoadClosed) (h : HostStep s t) : t.LoadClosed := by
  obtain h | ⟨image, h⟩ | ⟨code, h⟩ | ⟨b, h⟩ | h := h
  · exact State.loadClosed_of_step s t h
  · exact State.loadClosed_of_load s t image h
  · obtain ⟨-, rfl⟩ := State.enqueue_cases s t code h
    exact hs
  · obtain ⟨-, -, rfl⟩ := State.supplyHin_cases s t b h
    exact hs
  · obtain ⟨-, rfl⟩ := State.endHin_cases s t h
    exact hs

theorem State.LoadClosed.of_hostSteps {s t : State} (hs : s.LoadClosed) (h : Relation.ReflTransGen HostStep s t) :
    t.LoadClosed := by
  induction h with
  | refl => exact hs
  | tail _ hstep ih => exact ih.of_hostStep hstep

/-- Settles O7: reset leaves the load open, and closed it stays closed along every chain of host steps. -/
theorem loadIsAdmittedOnceBeforeTheFirstStep : Obligations.LoadIsAdmittedOnceBeforeTheFirstStep := by
  refine ⟨fun mode disk image hl => ⟨_, State.load_of_admitted _ image rfl rfl hl⟩, fun s t u image hfirst hchain => ?_⟩
  have hclosed : t.LoadClosed := hfirst.elim (State.loadClosed_of_step s t) fun ⟨first, h⟩ =>
    State.loadClosed_of_load s t first h
  exact State.load_of_not_admitted u image (hclosed.of_hostSteps hchain)

end Sys2Proof.Machine
end

section
/-! PROOFS. Plain text on the console (spec/60_exceptions.md rules R163 and R166): one byte fills the cursor's cell and moves the
cursor on, and so a text that ends before the last cell of the grid is one run of writes from the cursor. -/

namespace Sys2Proof.Machine

/-! ### One byte -/

/-- Before the last column the cursor goes one column right (R163). -/
theorem State.putChar_other_of_lt (s : State) (c : Byte) (h1 : c ≠ 0x0A#8) (h2 : c ≠ 0x0D#8) (h3 : c ≠ 0x08#8)
    (hx : s.curX < 79) (hy : s.curY < 30) :
    s.putChar c = { s.rawWrite (cellAddr s.curY s.curX) c with curX := s.curX + 1 } := by
  have hcol : s.curX + 1 ≠ Config.displayCols := by simp only [Config.displayCols]; omega
  rw [State.putChar_other s c h1 h2 h3, State.consoleWrite, if_neg hcol, State.consoleScroll_of_not_past]
  exact hy.ne

/-- Past the last column the cursor goes to column 0 of the next row (R163), which may scroll. -/
theorem State.putChar_other_of_last (s : State) (c : Byte) (h1 : c ≠ 0x0A#8) (h2 : c ≠ 0x0D#8) (h3 : c ≠ 0x08#8)
    (hx : s.curX = 79) :
    s.putChar c =
      State.consoleScroll { s.rawWrite (cellAddr s.curY s.curX) c with curX := 0, curY := s.curY + 1 } := by
  rw [State.putChar_other s c h1 h2 h3, State.consoleWrite, if_pos (by rw [hx])]

/-- Settles O44: the state after the raw write at the cursor's cell is the `w` of every clause. -/
theorem otherBytesFillTheCell : Obligations.OtherBytesFillTheCell := by
  rintro s c ⟨hw, -, hy⟩ h1 h2 h3
  have hread := fun a => State.readByte_rawWrite s (cellAddr s.curY s.curX) a c hw
  refine ⟨s.rawWrite (cellAddr s.curY s.curX) c, rfl, ?_, fun a ha => ?_, fun hx => ?_, fun hx hrow => ?_,
    fun hx hrow => ?_⟩
  · exact (hread _).trans (if_pos rfl)
  · exact (hread a).trans (if_neg ha)
  · exact State.putChar_other_of_lt s c h1 h2 h3 hx hy
  · rw [State.putChar_other_of_last s c h1 h2 h3 hx, State.consoleScroll_of_not_past]
    exact (Nat.succ_lt_succ hrow).ne
  · rw [State.putChar_other_of_last s c h1 h2 h3 hx, hrow]

/-! ### A text -/

/-- The cursor set to cell `i` of the grid, the cells counted row by row. -/
def State.moveCursor (s : State) (i : Nat) : State := { s with curX := i % 80, curY := i / 80 }

/-- The number of the cursor's cell. -/
def State.cursorIndex (s : State) : Nat := 80 * s.curY + s.curX

@[simp] theorem State.cursorIndex_moveCursor (s : State) (i : Nat) : (s.moveCursor i).cursorIndex = i := Nat.div_add_mod i 80

theorem State.moveCursor_cursorIndex (s : State) (hx : s.curX < 80) : s.moveCursor s.cursorIndex = s := by
  have hcol : s.cursorIndex % 80 = s.curX := by simp only [State.cursorIndex]; omega
  have hrow : s.cursorIndex / 80 = s.curY := by simp only [State.cursorIndex]; omega
  rw [State.moveCursor, hcol, hrow]

/-- The address of cell `i` of the grid. -/
def gridAddr (i : Nat) : Word := add16 0xF000#16 (BitVec.ofNat 16 i)

theorem gridAddr_add (i k : Nat) : gridAddr (i + k) = add16 (gridAddr i) (BitVec.ofNat 16 k) := by
  rw [gridAddr, gridAddr, BitVec.ofNat_add, add16, add16, add16, BitVec.add_assoc]

theorem cellAddr_eq_gridAddr (y x : Nat) : cellAddr y x = gridAddr (80 * y + x) := by
  rw [cellAddr, gridAddr, add16, Nat.add_assoc, BitVec.ofNat_add]

/-- Short of the last cell of the grid the cursor goes one cell on, and no scroll follows. -/
theorem State.putChar_plain (s : State) (c : Byte) (h1 : c ≠ 0x0A#8) (h2 : c ≠ 0x0D#8) (h3 : c ≠ 0x08#8)
    (hx : s.curX < 80) (hi : s.cursorIndex + 1 < 2400) :
    s.putChar c = (s.rawWrite (gridAddr s.cursorIndex) c).moveCursor (s.cursorIndex + 1) := by
  simp only [State.moveCursor, State.cursorIndex, ← cellAddr_eq_gridAddr] at hi ⊢
  by_cases hlast : s.curX = 79
  · have hcol : (80 * s.curY + s.curX + 1) % 80 = 0 := by omega
    have hrow : (80 * s.curY + s.curX + 1) / 80 = s.curY + 1 := by omega
    rw [State.putChar_other_of_last s c h1 h2 h3 hlast, State.consoleScroll_of_not_past, hcol, hrow]
    exact (show s.curY + 1 < 30 by omega).ne
  · have hcol : (80 * s.curY + s.curX + 1) % 80 = s.curX + 1 := by omega
    have hrow : (80 * s.curY + s.curX + 1) / 80 = s.curY := by omega
    rw [State.putChar_other_of_lt s c h1 h2 h3 (by omega) (by omega), hcol, hrow]
    rfl

/-- A text with no control byte that ends before the last cell of the grid is one run of writes from the cursor. -/
theorem State.foldl_putChar_plain (text : List Byte) (s : State)
    (hplain : ∀ c ∈ text, c ≠ 0x0A#8 ∧ c ≠ 0x0D#8 ∧ c ≠ 0x08#8) (hx : s.curX < 80)
    (hi : s.cursorIndex + text.length < 2400) :
    text.foldl State.putChar s =
      (s.rawWrites (gridAddr s.cursorIndex) text).moveCursor (s.cursorIndex + text.length) := by
  induction text generalizing s with
  | nil => exact (State.moveCursor_cursorIndex s hx).symm
  | cons c text ih =>
    obtain ⟨⟨h1, h2, h3⟩, hrest⟩ := List.forall_mem_cons.mp hplain
    rw [List.length_cons] at hi ⊢
    rw [List.foldl_cons, State.putChar_plain s c h1 h2 h3 hx (by omega),
      ih _ hrest (Nat.mod_lt _ (by decide)) (by rw [State.cursorIndex_moveCursor]; omega), State.cursorIndex_moveCursor,
      gridAddr_add, Nat.add_right_comm s.cursorIndex 1, Nat.add_assoc]
    rfl

/-- The cell `k` places after the cursor's holds character `k` of such a text afterwards. -/
theorem State.displayCell_foldl_putChar_plain (text : List Byte) (s : State) (hw : s.mem.wf = true)
    (hplain : ∀ c ∈ text, c ≠ 0x0A#8 ∧ c ≠ 0x0D#8 ∧ c ≠ 0x08#8) (hx : s.curX < 80)
    (hi : s.cursorIndex + text.length < 2400) (k y x : Nat) (hk : k < text.length) (hcell : 80 * y + x = s.cursorIndex + k) :
    (text.foldl State.putChar s).displayCell y x = text[k] := by
  rw [State.foldl_putChar_plain text s hplain hx hi, State.displayCell, cellAddr_eq_gridAddr, hcell, gridAddr_add]
  exact State.readByte_rawWrites_at s _ text k hw hk (by omega)

/-- Settles O46: the text is one run of writes, its byte `k` lies `k` cells after the cursor's, and the cursor ends 81 cells
on. -/
theorem eightyOneCharactersFillARow : Obligations.EightyOneCharactersFillARow := by
  intro s text hw hx hy hlen hplain
  have hstart : s.cursorIndex = 80 * s.curY := by rw [State.cursorIndex, hx, Nat.add_zero]
  have hcol : s.curX < 80 := by omega
  have hroom : s.cursorIndex + text.length < 2400 := by omega
  have hrun := State.foldl_putChar_plain text s hplain hcol hroom
  have hcells := State.displayCell_foldl_putChar_plain text s hw hplain hcol hroom
  refine ⟨_, rfl, ?_, ?_, fun x h _ => hcells x _ _ h (by omega), fun h => hcells 80 _ _ h (by omega)⟩
  · have hend : (s.cursorIndex + text.length) % 80 = 1 := by omega
    rw [hrun, State.moveCursor, hend]
  · have hend : (s.cursorIndex + text.length) / 80 = s.curY + 1 := by omega
    rw [hrun, State.moveCursor, hend]

end Sys2Proof.Machine
end

section
/-! PROOFS. The Input Queue (spec/60_exceptions.md rules R170 and R171): an enqueue appends to the pending codes, and a
dequeue takes the first of them. -/

namespace Sys2Proof.Machine

/-! ### Enqueue -/

theorem InputQueue.enqueue_of_room (q : InputQueue) (c : Byte) (h : q.pending < 63) :
    q.enqueue c = { q with buf := q.buf.set q.tail c, tail := q.tail + 1 } := by
  rw [InputQueue.enqueue, if_pos h]

/-- The tail is where the walk over the pending codes ends (R18). -/
theorem InputQueue.head_add_pending (q : InputQueue) : (q.head.val + q.pending) % 64 = q.tail.val := by
  simp only [InputQueue.pending, Fin.sub_def]
  omega

/-- No pending code stands at the tail. -/
theorem InputQueue.tail_ne_of_lt_pending (q : InputQueue) (j : Nat) (h : j < q.pending) :
    q.tail.val ≠ (q.head.val + j) % 64 := by
  simp only [InputQueue.pending, Fin.sub_def] at h
  omega

theorem InputQueue.pending_enqueue (q : InputQueue) (c : Byte) (h : q.pending < 63) :
    (q.enqueue c).pending = q.pending + 1 := by
  rw [InputQueue.enqueue_of_room q c h]
  simp only [InputQueue.pending, Fin.sub_def, Fin.val_add] at h ⊢
  simp
  omega

/-- The codes pending before stand where they stood, and the new one is the last (R170). -/
theorem InputQueue.contents_enqueue (q : InputQueue) (c : Byte) (h : q.pending < 63) :
    (q.enqueue c).contents = q.contents ++ [c] := by
  rw [InputQueue.contents, InputQueue.pending_enqueue q c h, List.range_succ, List.map_append]
  simp only [InputQueue.enqueue_of_room q c h]
  congr 1
  · refine List.map_congr_left fun j hj => ?_
    exact Vector.getElem_set_ne _ _ (q.tail_ne_of_lt_pending j (List.mem_range.mp hj))
  · simp [q.head_add_pending]

/-! ### Dequeue -/

/-- With codes pending, a dequeue answers the first and leaves the rest (R171). -/
theorem InputQueue.dequeue?_of_contents (q : InputQueue) (c : Byte) (rest : List Byte) (h : q.contents = c :: rest) :
    q.dequeue? = some (c, { q with head := q.head + 1 }) ∧
      ({ q with head := q.head + 1 } : InputQueue).contents = rest ∧ c = q.buf[q.head] := by
  have hne : q.head ≠ q.tail := fun e => by simp [q.contents_eq_nil.mpr e] at h
  rw [q.contents_of_pending hne, List.cons.injEq] at h
  obtain ⟨hc, hrest⟩ := h
  exact ⟨by rw [q.dequeue?_of_pending hne, hc], hrest, hc.symm⟩

/-- Settles O53: the pending codes are a list that an enqueue extends at the end and a dequeue shortens at the front. -/
theorem queueIsFirstInFirstOut : Obligations.QueueIsFirstInFirstOut := by
  refine ⟨fun s c hi hroom => ?_, fun q => ⟨?_, fun c rest h => ?_⟩⟩
  · rw [InputQueue.length_contents] at hroom
    refine ⟨s.inq.enqueue c, ?_, s.inq.contents_enqueue c hroom, ?_⟩
    · rw [State.enqueue, if_pos hi]
    · rw [InputQueue.enqueue_of_room _ _ hroom]
      exact ⟨rfl, Fin.val_add _ _, rfl⟩
  · rw [InputQueue.dequeue?_eq_none, InputQueue.contents_eq_nil]
  · obtain ⟨hd, hrest, hc⟩ := q.dequeue?_of_contents c rest h
    exact ⟨_, hd, hrest, Fin.val_add _ _, rfl, rfl, hc⟩

end Sys2Proof.Machine
end

section
/-! PROOFS. The decoder and the encoder (spec/30_encoding.md rules R61 to R69) are inverse to each other: an instruction is its
opcode byte and the operand bytes of its format, and the decoder's readers of those bytes undo the encoder's writers. -/

namespace Sys2Proof.Machine

/-! ### The operand readers on the bytes the encoder writes -/

@[simp] theorem regAt_zero_cons (b : Byte) (bs : List Byte) : regAt (b :: bs) 0 = regOperandOf b := rfl

@[simp] theorem regAt_one_cons (b c : Byte) (bs : List Byte) : regAt (b :: c :: bs) 1 = regOperandOf c := rfl

/-- An address operand follows the opcode (R62). -/
@[simp] theorem wordAt_a_cons (lo hi : Byte) (bs : List Byte) : wordAt (lo :: hi :: bs) .a = wordOfBytes lo hi := rfl

/-- A 16-bit operand after a register operand (R62). -/
@[simp] theorem wordAt_ri_cons (b lo hi : Byte) (bs : List Byte) : wordAt (b :: lo :: hi :: bs) .ri = wordOfBytes lo hi := rfl

/-- The bytes after the opcode byte (R61). -/
def operandBytes (i : Instr) : List Byte := (encode i).tail

theorem encode_eq_cons (i : Instr) : encode i = Config.opc i.mnemonic :: operandBytes i := by cases i <;> rfl

theorem length_operandBytes (i : Instr) : (operandBytes i).length = i.mnemonic.length - 1 := by cases i <;> rfl

/-- Building from the operand bytes of a well-formed instruction gives it back, whatever bytes follow them. -/
theorem build_operandBytes (i : Instr) (rest : List Byte) (h : i.wellFormed = true) :
    i.mnemonic.build (operandBytes i ++ rest) = i := by
  have hreg : ∀ r ∈ i.regOperands, regOperandOf (regByte r) = r := fun r hr =>
    regOperandOf_regByte r (List.all_eq_true.mp h r hr)
  cases i <;>
    simp_all [Instr.regOperands, Instr.mnemonic, Mnemonic.build, Mnemonic.format, operandBytes, encode, regBytes_eq,
      wordBytes, wordOfBytes_low_high]

/-- Settles O1: the opcode byte selects the mnemonic, whose format takes the operand bytes and no more. -/
theorem decodeOfEncodeIsTheInstruction : Obligations.DecodeOfEncodeIsTheInstruction := by
  intro i rest h
  have hlen := length_operandBytes i
  rw [encode_eq_cons, List.cons_append, decode_opc _ _ (by rw [List.length_append]; omega), build_operandBytes i rest h,
    ← hlen, List.drop_left]

/-! ### What the decoder accepts -/

/-- Everything the decoder can do when it answers: a legal opcode byte, and enough bytes after it. -/
theorem decode_cases (bs rest : List Byte) (i : Instr) (h : decode bs = .ok (i, rest)) :
    ∃ m operands, bs = Config.opc m :: operands ∧ m.length - 1 ≤ operands.length ∧ i = m.build operands ∧
      rest = operands.drop (m.length - 1) := by
  cases bs with
  | nil => simp [decode] at h
  | cons op operands =>
    simp only [decode] at h
    split at h
    · cases h
    · next m hm =>
      split_ifs at h with hlen
      cases h
      exact ⟨m, operands, by rw [opc_of_mnemonicOf? op m hm], Nat.not_lt.mp hlen, rfl, rfl⟩

/-- Every register operand is made by the one check at decode time (R69). -/
theorem wellFormed_build (m : Mnemonic) (operands : List Byte) : (m.build operands).wellFormed = true := by
  have hreg : ∀ k, (regAt operands k).wellFormed = true := fun k => wellFormed_regOperandOf _
  cases m <;> simp [Mnemonic.build, Instr.wellFormed, Instr.regOperands, hreg]

/-! ### The operand bytes written back, format by format (R62) -/

theorem regBytes_regAt (bs : List Byte) (h : 1 ≤ bs.length) : regBytes (regAt bs 0) = bs.take 1 := by
  match bs, h with
  | b :: bs, _ => simp [regBytes_eq, regByte_regOperandOf]

theorem regBytes_regAt_append (bs : List Byte) (h : 2 ≤ bs.length) :
    regBytes (regAt bs 0) ++ regBytes (regAt bs 1) = bs.take 2 := by
  match bs, h with
  | b :: c :: bs, _ => simp [regBytes_eq, regByte_regOperandOf]

theorem wordBytes_wordAt (bs : List Byte) (h : 2 ≤ bs.length) : wordBytes (wordAt bs .a) = bs.take 2 := by
  match bs, h with
  | lo :: hi :: bs, _ => simp [wordBytes, lowByte_wordOfBytes, highByte_wordOfBytes]

theorem regBytes_append_wordBytes (bs : List Byte) (h : 3 ≤ bs.length) :
    regBytes (regAt bs 0) ++ wordBytes (wordAt bs .ri) = bs.take 3 := by
  match bs, h with
  | b :: lo :: hi :: bs, _ =>
    simp [regBytes_eq, regByte_regOperandOf, wordBytes, lowByte_wordOfBytes, highByte_wordOfBytes]

/-- The encoder writes back the operand bytes that the decoder read. -/
theorem operandBytes_build (m : Mnemonic) (bs : List Byte) (h : m.length - 1 ≤ bs.length) :
    operandBytes (m.build bs) = bs.take (m.length - 1) := by
  cases m
  case ret | halt => rfl
  case print | push | pop | inp | out => exact regBytes_regAt bs h
  case add | sub | cmp | loadr | storer => exact regBytes_regAt_append bs h
  case jmp | jz | call => exact wordBytes_wordAt bs h
  case load | loadm | store => exact regBytes_append_wordBytes bs h

/-- Settles O2: the operand bytes read are written back, and the rest is what follows them. -/
theorem decodedInstructionEncodesToItsBytes : Obligations.DecodedInstructionEncodesToItsBytes := by
  intro bs rest i h
  obtain ⟨m, operands, rfl, hlen, rfl, rfl⟩ := decode_cases bs rest i h
  refine ⟨wellFormed_build m operands, ?_⟩
  rw [encode_eq_cons, mnemonic_build, operandBytes_build m operands hlen, List.cons_append, List.take_append_drop]

/-! ### The opcode map -/

/-- The opcode bytes count the table's rows from 1 (R67). -/
theorem opc_toNat_of_table (k : Nat) (h : k < Mnemonic.all.length) : (Config.opc Mnemonic.all[k]).toNat = k + 1 := by
  revert k
  decide

theorem mem_mnemonic_all (m : Mnemonic) : m ∈ Mnemonic.all := by cases m <;> decide

/-- The bytes that are no opcode are those outside the table's range (R68). -/
theorem mnemonicOf?_eq_none_iff (b : Byte) : mnemonicOf? b = none ↔ b.toNat = 0 ∨ 0x13 ≤ b.toNat := by
  have hlen : Mnemonic.all.length = 18 := rfl
  constructor
  · intro h
    by_contra hrange
    have hk : b.toNat - 1 < Mnemonic.all.length := by omega
    have hopc : Config.opc Mnemonic.all[b.toNat - 1] = b := by
      apply BitVec.eq_of_toNat_eq
      rw [opc_toNat_of_table _ hk]
      omega
    rw [← hopc, mnemonicOf?_opc] at h
    cases h
  · intro hrange
    rw [mnemonicOf?, List.find?_eq_none]
    intro m hm hopc
    obtain ⟨k, hk, rfl⟩ := List.getElem_of_mem hm
    have hbyte := opc_toNat_of_table k hk
    rw [eq_of_beq hopc] at hbyte
    omega

/-- Settles O3: the table is listed in the order of its opcode bytes, so a byte in its range selects a row. -/
theorem opcodesFollowTableOrder : Obligations.OpcodesFollowTableOrder :=
  ⟨opc_toNat_of_table, mem_mnemonic_all, rfl, mnemonicOf?_eq_none_iff⟩

/-- Settles O4: each legal word is the encoding of its instruction. -/
theorem wordsOfTheSpecDecode : Obligations.WordsOfTheSpecDecode :=
  ⟨decodeOfEncodeIsTheInstruction (.load (.gpr 0) 5) [] rfl, decodeOfEncodeIsTheInstruction (.store (.gpr 1) 0xE000) [] rfl,
    decodeOfEncodeIsTheInstruction (.sub (.gpr 0) (.gpr 1)) [] rfl, decodeOfEncodeIsTheInstruction (.jz 0x0010) [] rfl,
    decodeOfEncodeIsTheInstruction (.push (.gpr 3)) [] rfl, decodeOfEncodeIsTheInstruction (.out (.gpr 1)) [] rfl,
    decodeOfEncodeIsTheInstruction (.cmp (.gpr 0) (.outOfRange 0xFF)) [] rfl, rfl⟩

end Sys2Proof.Machine
end

section
/-! PROOFS. What holds of every instruction, from the elimination principle `exec_elim`, and so of every step: the invariant is
kept, the mode is neither changed nor seen but by `IN` and `OUT`, and which instructions write the flag, `sp`, memory and the disk
store (spec/10_state.md rules R12 to R15, R17, R19, R20; spec/20_memory.md rule R37). -/

namespace Sys2Proof.Machine

/-! ### The invariant -/

/-- An instruction keeps the invariant: what it stores is stored by writes that keep the canonical form, and `put_char` keeps the
cursor in the grid. -/
theorem State.Inv.of_exec {s t : State} (hs : s.Inv) (i : Instr) (h : exec i s = .next t) : t.Inv := by
  obtain ⟨hw, hx, hy⟩ := hs
  apply exec_elim (P := fun _ t => t.Inv) (h := h)
  case store => exact fun i a v _ => ⟨State.wf_memWrite s a v hw, hx, hy⟩
  case outCell =>
    intro r _
    obtain ⟨hx', hy'⟩ := State.cursor_putChar (s.advance .out) (lowByte (s.reg r)) hx hy
    exact ⟨State.wf_putChar _ _ hw, hx', hy'⟩
  case jz => intro a; split <;> exact ⟨hw, hx, hy⟩
  all_goals intros; exact ⟨hw, hx, hy⟩

/-- Settles O14: an instruction keeps the invariant, and a stop touches neither memory nor the cursor. -/
theorem stepKeepsTheInvariant : Obligations.StepKeepsTheInvariant := by
  intro s t hs h
  obtain ⟨-, rfl⟩ | ⟨-, op, -, rfl⟩ | ⟨-, i, -, hi⟩ := step_cases s t h
  · exact ⟨hs.mem_wf, hs.curX_lt, hs.curY_lt⟩
  · exact ⟨hs.mem_wf, hs.curX_lt, hs.curY_lt⟩
  · exact hs.of_exec i hi

/-! ### One register out of range -/

/-- With one operand out of range the instruction moves on and does nothing else (R69). -/
theorem exec_of_outOfRange (i : Instr) (s : State) (b : Byte) (h : .outOfRange b ∈ i.regOperands) :
    exec i s = .next (s.advance i.mnemonic) := by
  cases i
  case jmp | jz | call | ret | halt => cases h
  case load | loadm | store | print | push | pop | inp | out => cases List.mem_singleton.mp h; rfl
  all_goals
    obtain rfl | rfl := List.mem_pair.mp h
    · rfl
    · simp [Instr.mnemonic]

/-- Settles O22: `advance` is the whole effect. -/
theorem outOfRangeOperandMakesANoop : Obligations.OutOfRangeOperandMakesANoop := by
  rintro i s ⟨b, hb⟩
  exact exec_of_outOfRange i s b hb

/-! ### The mode -/

theorem exec_interactive (i : Instr) (s t : State) (h : exec i s = .next t) : t.interactive = s.interactive := by
  apply exec_elim (P := fun _ t => t.interactive = s.interactive) (h := h)
  case jz => intro a; split <;> rfl
  case outCell => intros; rw [State.putChar_interactive, State.advance_interactive]
  all_goals intros; rfl

/-- Settles O16: an instruction keeps the bit, and so does a stop. -/
theorem noStepChangesTheMode : Obligations.NoStepChangesTheMode := by
  intro s t h
  obtain ⟨-, rfl⟩ | ⟨-, op, -, rfl⟩ | ⟨-, i, -, hi⟩ := step_cases s t h
  · rfl
  · rfl
  · exact exec_interactive i s t hi

theorem storePc_setInteractive (i : Instr) (s : State) (mode : Bool) :
    storePc i { s with interactive := mode } = storePc i s := by cases i <;> rfl

/-- Settles O17: an engine store depends on memory, the disk store and the draws only, and no other instruction than `IN` and
`OUT` looks at the bit. -/
theorem onlyInAndOutSeeTheMode : Obligations.OnlyInAndOutSeeTheMode := by
  intro i s t mode hin hout h
  revert hin hout
  apply exec_elim (h := h) (P := fun i t => i.mnemonic ≠ .inp → i.mnemonic ≠ .out →
    exec i { s with interactive := mode } = .next { t with interactive := mode })
  case noop => exact fun i ⟨b, hb⟩ _ _ => exec_of_outOfRange i _ b hb
  case store =>
    intro i a v hi _ _
    obtain ⟨hmem, hstore, hdraws⟩ := State.memWrite_of_same s { s with interactive := mode } rfl rfl rfl a v
    rw [exec_of_engineStore i { s with interactive := mode } a v hi, hmem, hstore, hdraws, storePc_setInteractive]
  case jz => intro a _ _; rw [exec_jz]; split <;> rfl
  case outCell | outByte => exact fun r _ _ hout => absurd rfl hout
  case blocked | code => exact fun r _ _ hin => absurd rfl hin
  case byte => exact fun r b rest _ _ hin => absurd rfl hin
  case ended => exact fun r _ _ _ hin => absurd rfl hin
  all_goals intros; rfl

/-! ### Who writes what -/

/-- A step that changes an item which no stop changes runs an instruction. -/
theorem step_exec_of_ne {α : Type} (item : State → α) (s t : State) (h : step s = .next t) (hne : item t ≠ item s)
    (hstopped : item { s with outcome := some .halted } = item s)
    (herror : ∀ op, item (s.raiseDecodeError op s.pc) = item s) : ∃ i, s.fetch = .ok i ∧ exec i s = .next t := by
  obtain ⟨-, rfl⟩ | ⟨-, op, -, rfl⟩ | ⟨-, i, hf, hi⟩ := step_cases s t h
  · exact absurd hstopped hne
  · exact absurd (herror op) hne
  · exact ⟨i, hf, hi⟩

/-- `ADD`, `SUB` or `CMP` with valid registers. -/
def WritesFlag (i : Instr) : Prop :=
  ∃ a b, i = .add (.gpr a) (.gpr b) ∨ i = .sub (.gpr a) (.gpr b) ∨ i = .cmp (.gpr a) (.gpr b)

/-- Only the three write the flag (R13). -/
theorem writesFlag_of_exec (i : Instr) (s t : State) (h : exec i s = .next t) (hne : t.zeroFlag ≠ s.zeroFlag) :
    WritesFlag i := by
  revert hne
  apply exec_elim (h := h) (P := fun i t => t.zeroFlag ≠ s.zeroFlag → WritesFlag i)
  case add => exact fun a b _ => ⟨a, b, .inl rfl⟩
  case sub => exact fun a b _ => ⟨a, b, .inr (.inl rfl)⟩
  case cmp => exact fun a b _ => ⟨a, b, .inr (.inr rfl)⟩
  case jz => intro a hne; split at hne <;> exact absurd rfl hne
  all_goals intros; rename_i hne; simp at hne

/-- Settles O18: a step that changes the flag runs one of the three. -/
theorem onlyArithmeticWritesTheFlag : Obligations.OnlyArithmeticWritesTheFlag := by
  intro s t h hne
  obtain ⟨i, hf, hi⟩ := step_exec_of_ne State.zeroFlag s t h hne rfl fun _ => rfl
  obtain ⟨a, b, hab⟩ := writesFlag_of_exec i s t hi hne
  exact ⟨a, b, by simpa [hf] using hab⟩

/-- The two engine stores that move `sp`, by their mnemonics. -/
theorem push_or_call_of_engineStore (i : Instr) (s : State) (a v : Word) (h : engineStore? i s = some (a, v))
    (hm : i.mnemonic = .push ∨ i.mnemonic = .call) : (∃ r, i = .push (.gpr r)) ∨ ∃ target, i = .call target := by
  match i, h with
  | .push (.gpr r), _ => exact .inl ⟨r, rfl⟩
  | .call target, _ => exact .inr ⟨target, rfl⟩
  | .store (.gpr _) _, _ | .storer (.gpr _) (.gpr _), _ => simp [Instr.mnemonic] at hm

/-- `PUSH` or `CALL` lowers `sp` by 2, or `POP` or `RET` raises it by 2. -/
def MovesSp (i : Instr) (s t : State) : Prop :=
  (t.sp = s.sp - 2 ∧ ((∃ r, i = .push (.gpr r)) ∨ ∃ a, i = .call a)) ∨
    (t.sp = s.sp + 2 ∧ ((∃ r, i = .pop (.gpr r)) ∨ i = .ret))

/-- Only the four move `sp` (R12). -/
theorem movesSp_of_exec (i : Instr) (s t : State) (h : exec i s = .next t) (hne : t.sp ≠ s.sp) : MovesSp i s t := by
  revert hne
  apply exec_elim (h := h) (P := fun i t => t.sp ≠ s.sp → MovesSp i s t)
  case store =>
    intro i a v hi hne
    split_ifs at hne ⊢ with hm
    · exact .inl ⟨rfl, push_or_call_of_engineStore i s a v hi hm⟩
    · exact absurd rfl hne
  case pop => exact fun r _ => .inr ⟨rfl, .inl ⟨r, rfl⟩⟩
  case ret => exact fun _ => .inr ⟨rfl, .inr rfl⟩
  case jz => intro a hne; split at hne <;> exact absurd rfl hne
  all_goals intros; rename_i hne; simp at hne

/-- Settles O19: a step that moves `sp` runs one of the four. -/
theorem onlyStackInstructionsMoveSp : Obligations.OnlyStackInstructionsMoveSp := by
  intro s t h hne
  obtain ⟨i, hf, hi⟩ := step_exec_of_ne State.sp s t h hne rfl fun _ => rfl
  simpa [hf, MovesSp] using movesSp_of_exec i s t hi hne

/-- Only an engine store and an interactive `OUT` write memory (R37). -/
theorem exec_mem_ne (i : Instr) (s t : State) (h : exec i s = .next t) (hne : t.mem ≠ s.mem) :
    (engineStore? i s).isSome = true ∨ (s.interactive = true ∧ i.mnemonic = .out) := by
  revert hne
  apply exec_elim (h := h) (P := fun i t => t.mem ≠ s.mem →
    (engineStore? i s).isSome = true ∨ (s.interactive = true ∧ i.mnemonic = .out))
  case store => exact fun i a v hi _ => .inl (by rw [hi]; rfl)
  case outCell => exact fun r hmode _ => .inr ⟨hmode, rfl⟩
  case jz => intro a hne; split at hne <;> exact absurd rfl hne
  all_goals intros; rename_i hne; simp at hne

/-- Settles O20: a step that changes memory runs an instruction that writes it. -/
theorem onlyStoresAndConsoleWriteMemory : Obligations.OnlyStoresAndConsoleWriteMemory := by
  intro s t h hne
  obtain ⟨i, hf, hi⟩ := step_exec_of_ne State.mem s t h hne rfl fun _ => rfl
  exact ⟨i, hf, exec_mem_ne i s t hi hne⟩

/-! ### The disk store -/

theorem State.store_dispatch (s : State) (hroom : s.store.length < 65535) :
    s.dispatch.store = s.store ∨ ∃ e, s.dispatch.store = s.store ++ [e] := by
  simp only [State.dispatch]
  exact State.store_diskCommand { s with diskDraws := s.diskDraws + 1 } _ _ _ _ _ hroom

/-- An engine store that misses the command register leaves the disk store; one that hits it leaves it or appends one entry
(R20, R44). -/
theorem State.store_memWrite (s : State) (a v : Word) (hroom : s.store.length < 65535) :
    (s.memWrite a v).store = s.store ∨
      ((a = 0xE000#16 ∨ a = 0xDFFF#16) ∧ ∃ e, (s.memWrite a v).store = s.store ++ [e]) := by
  by_cases hhit : a = 0xE000#16 ∨ a = 0xDFFF#16
  · rw [State.memWrite_of_hit s a v hhit]
    exact (State.store_dispatch (s.storeBytes a v) hroom).imp_right fun h => ⟨hhit, h⟩
  · rw [not_or] at hhit
    exact .inl (by rw [State.memWrite_of_miss s a v hhit.1 hhit.2, State.storeBytes_store])

/-- The instruction's engine store hits the command register, and one entry is appended to the disk store. -/
def AppendsEntry (i : Instr) (s t : State) : Prop :=
  ∃ a v, engineStore? i s = some (a, v) ∧ (a = 0xE000#16 ∨ a = 0xDFFF#16) ∧ ∃ e, t.store = s.store ++ [e]

theorem exec_store_cases (i : Instr) (s t : State) (hroom : s.store.length < 65535) (h : exec i s = .next t) :
    t.store = s.store ∨ AppendsEntry i s t := by
  apply exec_elim (h := h) (P := fun i t => t.store = s.store ∨ AppendsEntry i s t)
  case store =>
    intro i a v hi
    exact (State.store_memWrite s a v hroom).imp_right fun h => ⟨a, v, hi, h⟩
  case jz => intro a; split <;> exact .inl rfl
  case outCell => intros; exact .inl (State.putChar_store ..)
  all_goals intros; exact .inl rfl

/-- Settles O21: a step that changes the disk store runs an instruction that appends to it. -/
theorem diskStoreOnlyGrows : Obligations.DiskStoreOnlyGrows := by
  intro s t hroom h
  by_cases hsame : t.store = s.store
  · rw [hsame]
    exact ⟨List.prefix_refl _, Nat.le_succ _, .inl rfl⟩
  · obtain ⟨i, hf, hi⟩ := step_exec_of_ne State.store s t h hsame rfl fun _ => rfl
    obtain ⟨a, v, hstore, ha, e, happend⟩ := (exec_store_cases i s t hroom hi).resolve_left hsame
    rw [happend]
    exact ⟨List.prefix_append _ _, by rw [List.length_append]; rfl, .inr ⟨i, a, v, hf, hstore, ha⟩⟩

end Sys2Proof.Machine
end

section
/-! PROOFS. The step (spec/00_scope.md rule R9, spec/60_exceptions.md rules R130, R131, R133): what it fetches, when it completes,
and that it stops or blocks exactly under the conditions of the table. -/

namespace Sys2Proof.Machine

/-! ### The fetch -/

/-- The decoder and the fetch read the same bytes, as no instruction is longer than four (R61, R62). -/
theorem State.fetch_of_decode (s : State) (i : Instr) (rest : List Byte)
    (h : decode (s.readBytes s.pc 4) = .ok (i, rest)) : s.fetch = .ok i := by
  obtain ⟨m, operands, hbytes, -, rfl, -⟩ := decode_cases _ rest i h
  have hget : ∀ k < 4, s.readByte (add16 s.pc (BitVec.ofNat 16 k)) = (Config.opc m :: operands).getD k 0 := fun k hk => by
    rw [← hbytes, State.getD_readBytes _ _ _ _ hk]
  have hop : s.readByte s.pc = Config.opc m := by simpa [add16] using hget 0 (by decide)
  have hoperand : ∀ k < m.length - 1,
      (s.readBytes (addrAdd s.pc 1) (m.length - 1)).getD k 0 = operands.getD k 0 := by
    intro k hk
    have hm : m.length ≤ 4 := by cases m <;> decide
    have haddr : add16 (addrAdd s.pc 1) (BitVec.ofNat 16 k) = add16 s.pc (BitVec.ofNat 16 (k + 1)) := by
      rw [Nat.add_comm, BitVec.ofNat_add]
      exact BitVec.add_assoc s.pc 1 (BitVec.ofNat 16 k)
    rw [State.getD_readBytes _ _ _ _ hk, haddr, hget (k + 1) (by omega), List.getD_cons_succ]
  simp only [State.fetch, hop, mnemonicOf?_opc]
  rw [build_of_getD m _ _ hoperand]

/-- Settles O8: the instruction decoded is the one fetched. -/
theorem stepRunsTheDecodedInstruction : Obligations.StepRunsTheDecodedInstruction :=
  fun s i rest hr h => step_of_fetch_ok s i hr (s.fetch_of_decode i rest h)

/-- Settles O9: a byte outside the opcode map fails the fetch. -/
theorem illegalOpcodeStopsWithDecodeError : Obligations.IllegalOpcodeStopsWithDecodeError :=
  fun s hr hop => step_of_no_opcode s hr ((mnemonicOf?_eq_none_iff _).mpr hop)

/-! ### Runs that no longer move -/

/-- A state that a step answers again is answered by every run from it. -/
theorem core_run_of_step_self (k : Nat) (t : State) (h : step t = .next t) : Sys2Proof.core.run k t = .next t := by
  induction k with
  | zero => rfl
  | succ k ih => rw [core_run_succ k t t h, ih]

theorem core_run_succ_of_step_self (k : Nat) (s t : State) (h : step s = .next t) (hself : step t = .next t) :
    Sys2Proof.core.run (k + 1) s = .next t := by
  rw [core_run_succ k s t h, core_run_of_step_self k t hself]

theorem step_of_stopped (s : State) (h : s.running = false) : step s = .next { s with outcome := some .halted } := by
  rw [step, h]
  rfl

/-- Settles O10: the first step answers a state that every further step answers again. -/
theorem stoppedMachineNeverMovesAgain : Obligations.StoppedMachineNeverMovesAgain :=
  fun k s h => core_run_succ_of_step_self k s { s with outcome := some .halted } (step_of_stopped s h) (step_of_stopped _ h)

theorem exec_inp_of_empty (s : State) (r : Fin 8) (hmode : s.interactive = true) (hq : s.inq.head = s.inq.tail) :
    exec (.inp (.gpr r)) s = .next { s with outcome := some .blocked } := by
  rw [exec_inp, if_pos hmode, inInteractive, State.advance_inq, InputQueue.dequeue?_of_empty _ hq]

theorem step_of_inputBlocks (s : State) (h : s.InputBlocks) : step s = .next { s with outcome := some .blocked } := by
  obtain ⟨hr, hmode, hq, r, hf⟩ := h
  rw [step_of_fetch_ok s _ hr hf, exec_inp_of_empty s r hmode hq]

/-- Settles O42: a poll leaves a state whose next step is the same poll. -/
theorem blockedInPollsForEver : Obligations.BlockedInPollsForEver := by
  intro k s r hr hmode hq hf
  have hblocks : s.InputBlocks := ⟨hr, hmode, hq, r, hf⟩
  exact core_run_succ_of_step_self k s { s with outcome := some .blocked } (step_of_inputBlocks s hblocks)
    (step_of_inputBlocks { s with outcome := some .blocked } hblocks)

/-! ### A step completes -/

theorem withReg_completes (m : Mnemonic) (r : RegOperand) (s : State) (body : Fin 8 → State → Result)
    (h : ∀ r t, ∃ u, body r t = .next u) : ∃ u, withReg m r s body = .next u := by
  cases r with
  | gpr r => exact h r _
  | outOfRange b => exact ⟨_, withReg_outOfRange m b s body⟩

theorem withRegs_completes (m : Mnemonic) (r q : RegOperand) (s : State) (body : Fin 8 → Fin 8 → State → Result)
    (h : ∀ r q t, ∃ u, body r q t = .next u) : ∃ u, withRegs m r q s body = .next u := by
  cases r with
  | outOfRange b => exact ⟨_, withRegs_outOfRange_left m b q s body⟩
  | gpr r =>
    cases q with
    | gpr q => exact h r q _
    | outOfRange b => exact ⟨_, withRegs_outOfRange_right m (.gpr r) b s body⟩

/-- Every instruction but `IN` answers a next state. -/
theorem exec_completes (i : Instr) (s : State) (h : i.mnemonic ≠ .inp) : ∃ t, exec i s = .next t := by
  cases i
  case inp => exact absurd rfl h
  case jmp | jz | call | ret | halt => exact ⟨_, rfl⟩
  case load | loadm | store | print | push | pop | out => exact withReg_completes _ _ _ _ fun _ _ => ⟨_, rfl⟩
  case add | sub | cmp | loadr | storer => exact withRegs_completes _ _ _ _ _ fun _ _ _ => ⟨_, rfl⟩

/-- `IN` answers a next state, or awaits its input (R122 c). -/
theorem exec_inp_completes (r : RegOperand) (s : State) :
    (∃ t, exec (.inp r) s = .next t) ∨
      (exec (.inp r) s = .fault .hinNoAnswer ∧ s.interactive = false ∧ s.hin = [] ∧ s.hinEnded = false ∧
        ∃ q, r = .gpr q) := by
  cases r with
  | outOfRange b => exact .inl ⟨_, exec_inp_oor b s⟩
  | gpr q =>
    obtain ⟨-, -, h⟩ | ⟨-, -, h⟩ | ⟨-, b, rest, -, h⟩ | ⟨-, -, -, h⟩ | ⟨hmode, hhin, hend, h⟩ := exec_inp_cases q s
    case inr.inr.inr.inr => exact .inr ⟨h, hmode, hhin, hend, q, rfl⟩
    all_goals exact .inl ⟨_, h⟩

/-- Settles O11: a stop has a next state, and of the instructions only `IN` may have none. -/
theorem stepCompletesUnlessInputIsAwaited : Obligations.StepCompletesUnlessInputIsAwaited := by
  intro s
  cases hr : s.running with
  | false => exact .inl ⟨_, step_of_stopped s hr⟩
  | true =>
    cases hf : s.fetch with
    | error op => exact .inl ⟨_, step_of_fetch_error s op hr hf⟩
    | ok i =>
      rw [step_of_fetch_ok s i hr hf]
      by_cases hin : i.mnemonic = .inp
      · match i, hin with
        | .inp r, _ =>
          refine (exec_inp_completes r s).imp_right fun ⟨h, hmode, hhin, hend, q, hq⟩ => ?_
          exact ⟨h, rfl, hmode, hhin, hend, q, by rw [hq]⟩
      · exact .inl (exec_completes i s hin)

/-! ### How a step ends -/

theorem step_unique {s t u : State} (ht : step s = .next t) (hu : step s = .next u) : t = u := by
  rw [ht] at hu
  cases hu
  rfl

theorem step_of_halt (s : State) (hr : s.running = true) (hf : s.fetch = .ok .halt) :
    step s = .next (s.advance .halt).stopHalted := by
  rw [step_of_fetch_ok s _ hr hf, exec_halt]

theorem exec_inp_of_ended (s : State) (r : Fin 8) (hmode : s.interactive = false) (hhin : s.hin = [])
    (hend : s.hinEnded = true) : exec (.inp (.gpr r)) s = .next (s.advance .inp).stopHalted := by
  simp [exec_inp, hmode, inHeadless, hhin, hend]

theorem step_of_inputEnds (s : State) (h : s.InputEnds) : step s = .next (s.advance .inp).stopHalted := by
  obtain ⟨hr, hmode, hhin, hend, r, hf⟩ := h
  rw [step_of_fetch_ok s _ hr hf, exec_inp_of_ended s r hmode hhin hend]

/-- An instruction goes on, or is one of the three that do not: `HALT`, an `IN` at end-of-input, a blocked `IN`. -/
def GoesOnOrEnds (i : Instr) (s t : State) : Prop :=
  (t.outcome = some .continued ∧ t.running = s.running) ∨ i = .halt ∨
    ((∃ r, i = .inp (.gpr r)) ∧ s.interactive = false ∧ s.hin = [] ∧ s.hinEnded = true) ∨
    ((∃ r, i = .inp (.gpr r)) ∧ s.interactive = true ∧ s.inq.head = s.inq.tail)

theorem goesOnOrEnds_of_exec (i : Instr) (s t : State) (h : exec i s = .next t) : GoesOnOrEnds i s t := by
  apply exec_elim (h := h) (P := fun i t => GoesOnOrEnds i s t)
  case halt => exact .inr (.inl rfl)
  case ended => exact fun r hmode hhin hend => .inr (.inr (.inl ⟨⟨r, rfl⟩, hmode, hhin, hend⟩))
  case blocked => exact fun r hmode hq => .inr (.inr (.inr ⟨⟨r, rfl⟩, hmode, hq⟩))
  case jz => intro a; split <;> exact .inl ⟨rfl, rfl⟩
  case outCell => intros; exact .inl ⟨State.putChar_outcome .., State.putChar_running ..⟩
  all_goals intros; exact .inl ⟨rfl, rfl⟩

/-- The table of R130: a step that answers goes on, or ends under one of the five other conditions in the state named for it. -/
theorem step_outcome_cases (s t : State) (h : step s = .next t) :
    (s.running = true ∧ t.running = true ∧ t.outcome = some .continued) ∨
      (s.running = false ∧ t = { s with outcome := some .halted }) ∨
      (s.running = true ∧ s.fetch = .ok .halt ∧ t = (s.advance .halt).stopHalted) ∨
      (s.InputEnds ∧ t = (s.advance .inp).stopHalted) ∨
      (s.InputBlocks ∧ t = { s with outcome := some .blocked }) ∨
      (s.running = true ∧ ∃ op, s.fetch = .error op ∧ t = s.raiseDecodeError op s.pc) := by
  obtain ⟨hr, ht⟩ | ⟨hr, herror⟩ | ⟨hr, i, hf, hi⟩ := step_cases s t h
  · exact .inr (.inl ⟨hr, ht⟩)
  · exact .inr (.inr (.inr (.inr (.inr ⟨hr, herror⟩))))
  · obtain ⟨hgoes, hrun⟩ | rfl | ⟨⟨r, rfl⟩, hmode, hhin, hend⟩ | ⟨⟨r, rfl⟩, hmode, hq⟩ := goesOnOrEnds_of_exec i s t hi
    · exact .inl ⟨hr, hrun.trans hr, hgoes⟩
    · exact .inr (.inr (.inl ⟨hr, hf, step_unique h (step_of_halt s hr hf)⟩))
    · have hends : s.InputEnds := ⟨hr, hmode, hhin, hend, r, hf⟩
      exact .inr (.inr (.inr (.inl ⟨hends, step_unique h (step_of_inputEnds s hends)⟩)))
    · have hblocks : s.InputBlocks := ⟨hr, hmode, hq, r, hf⟩
      exact .inr (.inr (.inr (.inr (.inl ⟨hblocks, step_unique h (step_of_inputBlocks s hblocks)⟩))))

/-! ### Each outcome and its condition (R130) -/

theorem step_outcomeAgrees (s t : State) (h : step s = .next t) : t.OutcomeAgrees := by
  obtain ⟨-, hr, ho⟩ | ⟨hr, rfl⟩ | ⟨-, -, rfl⟩ | ⟨-, rfl⟩ | ⟨⟨hr, -⟩, rfl⟩ | ⟨-, op, -, rfl⟩ := step_outcome_cases s t h
  · exact ⟨.continued, ho, by simp [hr]⟩
  · exact ⟨.halted, rfl, by simp [hr]⟩
  · exact ⟨.halted, rfl, by simp⟩
  · exact ⟨.halted, rfl, by simp⟩
  · exact ⟨.blocked, rfl, by simp [hr]⟩
  · exact ⟨.decodeError op s.pc, rfl, by simp⟩

theorem step_halted_iff (s t : State) (h : step s = .next t) :
    t.outcome = some .halted ↔ s.running = false ∨ (s.running = true ∧ s.fetch = .ok .halt) ∨ s.InputEnds := by
  constructor
  · intro ho
    obtain ⟨-, -, hgoes⟩ | ⟨hr, -⟩ | ⟨hr, hf, -⟩ | ⟨hends, -⟩ | ⟨-, rfl⟩ | ⟨-, op, -, rfl⟩ := step_outcome_cases s t h
    · simp [hgoes] at ho
    · exact .inl hr
    · exact .inr (.inl ⟨hr, hf⟩)
    · exact .inr (.inr hends)
    · simp at ho
    · simp at ho
  · rintro (hr | ⟨hr, hf⟩ | hends)
    · rw [step_unique h (step_of_stopped s hr)]
    · rw [step_unique h (step_of_halt s hr hf), State.stopHalted_outcome]
    · rw [step_unique h (step_of_inputEnds s hends), State.stopHalted_outcome]

theorem step_blocked_iff (s t : State) (h : step s = .next t) : t.outcome = some .blocked ↔ s.InputBlocks := by
  constructor
  · intro ho
    obtain ⟨-, -, hgoes⟩ | ⟨-, rfl⟩ | ⟨-, -, rfl⟩ | ⟨-, rfl⟩ | ⟨hblocks, -⟩ | ⟨-, op, -, rfl⟩ := step_outcome_cases s t h
    case inr.inr.inr.inr.inl => exact hblocks
    case inl => simp [hgoes] at ho
    all_goals simp at ho
  · intro hblocks
    rw [step_unique h (step_of_inputBlocks s hblocks)]

theorem step_decodeError_iff (s t : State) (h : step s = .next t) (op : Byte) (addr : Word) :
    t.outcome = some (.decodeError op addr) ↔
      s.running = true ∧ addr = s.pc ∧ op = s.readByte s.pc ∧ mnemonicOf? op = none := by
  constructor
  · intro ho
    obtain ⟨-, -, hgoes⟩ | ⟨-, rfl⟩ | ⟨-, -, rfl⟩ | ⟨-, rfl⟩ | ⟨-, rfl⟩ | ⟨hr, op', hf, rfl⟩ := step_outcome_cases s t h
    case inr.inr.inr.inr.inr =>
      rw [State.raiseDecodeError_outcome] at ho
      cases ho
      obtain ⟨hop, hnone⟩ := (State.fetch_eq_error s op).mp hf
      exact ⟨hr, rfl, hop, hop ▸ hnone⟩
    case inl => simp [hgoes] at ho
    all_goals simp at ho
  · rintro ⟨hr, rfl, rfl, hnone⟩
    rw [step_unique h (step_of_no_opcode s hr hnone), State.raiseDecodeError_outcome]

/-- Settles O12: each outcome has its condition, and under each condition the next state is known. -/
theorem stepOutcomeFollowsTheTable : Obligations.StepOutcomeFollowsTheTable := by
  intro s t h
  refine ⟨step_outcomeAgrees s t h, step_halted_iff s t h, fun hr => ?stopped, fun hr hf => ?halt, fun hends => ?ended,
    step_blocked_iff s t h, fun hblocks => ?blocked, step_decodeError_iff s t h, fun hr hnone => ?error⟩
  case stopped => rw [step_unique h (step_of_stopped s hr)]
  case halt => rw [step_unique h (step_of_halt s hr hf)]; rfl
  case ended => rw [step_unique h (step_of_inputEnds s hends)]; rfl
  case blocked => rw [step_unique h (step_of_inputBlocks s hblocks)]
  case error => rw [step_unique h (step_of_no_opcode s hr hnone), State.raiseDecodeError_pc]

/-- Settles O15: of the six ways a step can end, three clear the bit of a running machine and none sets it. -/
theorem runningIsClearedByThreeEventsOnly : Obligations.RunningIsClearedByThreeEventsOnly := by
  refine ⟨fun mode disk => rfl, fun s t h => ⟨fun hr => ?_, fun hr => ⟨fun hstop => ?_, ?_⟩⟩⟩
  · rw [step_unique h (step_of_stopped s hr)]
    exact hr
  · obtain ⟨-, hgoes, -⟩ | ⟨hr', -⟩ | ⟨-, hf, -⟩ | ⟨hends, -⟩ | ⟨-, rfl⟩ | ⟨-, op, hf, -⟩ := step_outcome_cases s t h
    · simp [hgoes] at hstop
    · simp [hr] at hr'
    · exact .inl hf
    · exact .inr (.inr hends)
    · simp [hr] at hstop
    · exact .inr (.inl ⟨op, hf⟩)
  · rintro (hf | ⟨op, hf⟩ | hends)
    · rw [step_unique h (step_of_halt s hr hf), State.stopHalted_running]
    · rw [step_unique h (step_of_fetch_error s op hr hf), State.raiseDecodeError_running]
    · rw [step_unique h (step_of_inputEnds s hends), State.stopHalted_running]

end Sys2Proof.Machine
end

section
/-! PROOFS. Reset and the host's load (spec/70_reset_and_hazards.md rules R180 and R184). -/

namespace Sys2Proof.Machine

/-- Settles O5: memory lists nothing, and every register is one entry of a constant vector. -/
theorem initializeGivesResetValues : Obligations.InitializeGivesResetValues := by
  intro mode disk
  exact ⟨fun r => Vector.getElem_replicate r.isLt, rfl, rfl, rfl, fun a => rfl, rfl, rfl, rfl, rfl, rfl, rfl, rfl⟩

/-- Settles O13: memory lists nothing, and the cursor is the first cell of the grid. -/
theorem resetMeetsTheInvariant : Obligations.ResetMeetsTheInvariant := ⟨Memory.wf_nil, by decide, by decide⟩

/-- Byte `k` of an image lies at address `k` (R184). -/
theorem State.readByte_rawWrites_zero (s : State) (image : List Byte) (hw : s.mem.wf = true) (hl : image.length ≤ 65536)
    (k : Nat) (hk : k < image.length) : (s.rawWrites 0 image).readByte (BitVec.ofNat 16 k) = image[k] := by
  have h := State.readByte_rawWrites_at s 0 image k hw hk (by omega)
  rwa [add16, zero_add] at h

/-- An address past the image holds what it held (R184). -/
theorem State.readByte_rawWrites_zero_past (s : State) (image : List Byte) (hw : s.mem.wf = true) (a : Word)
    (ha : image.length ≤ a.toNat) : (s.rawWrites 0 image).readByte a = s.readByte a := by
  refine State.readByte_rawWrites_of_not_mem s 0 a image hw fun j hj e => ?_
  have : a.toNat ≤ j := by
    rw [e, add16, zero_add, BitVec.toNat_ofNat]
    exact Nat.mod_le _ _
  omega

/-- Settles O6: an admitted load is one run of writes from address 0. -/
theorem loadPlacesTheImageOrRejectsIt : Obligations.LoadPlacesTheImageOrRejectsIt := by
  intro s image hw
  refine ⟨s.load_of_not_admitted image, fun hl ho hfit => ?_, s.load_of_too_large image⟩
  refine ⟨_, s.load_of_admitted image hl ho hfit, fun k hk => ?_, fun a ha => ?_, rfl⟩
  · exact s.readByte_rawWrites_zero image hw hfit k hk
  · exact s.readByte_rawWrites_zero_past image hw a ha

end Sys2Proof.Machine
end

section
/-! PROOFS. The engine store (spec/20_memory.md rules R34 and R44) and the round trips over the stack (spec/42_control_flow.md rule
R103, spec/43_stack.md rule R113). `exec_of_engineStore` gives the whole next state; what is left is what the two byte writes leave
and, on the command register, that the dispatcher works on the memory with both bytes. -/

namespace Sys2Proof.Machine

/-! ### What the four storing instructions share -/

/-- The next state of a storing instruction, but for memory, the disk store and the draws. -/
theorem frame_of_engineStore (s : State) (i : Instr) (a v : Word) (h : engineStore? i s = some (a, v)) :
    ∃ t, exec i s = .next t ∧ t.mem = (s.memWrite a v).mem ∧ t.store = (s.memWrite a v).store ∧
      t.diskDraws = (s.memWrite a v).diskDraws ∧
      t.sp = (if i.mnemonic = .push ∨ i.mnemonic = .call then s.sp - 2 else s.sp) ∧
      (i.mnemonic ≠ .call → t.pc = s.pc + BitVec.ofNat 16 i.length) ∧ (∀ addr, i = .call addr → t.pc = addr) ∧
      t.outcome = some .continued ∧ RegsSameBut [] s t ∧ t.zeroFlag = s.zeroFlag ∧ ControlSame s t ∧
      OtherDevicesSame s t :=
  ⟨_, exec_of_engineStore i s a v h, rfl, rfl, rfl, rfl, storePc_of_not_call i s, by rintro addr rfl; rfl, rfl,
    fun _ _ => rfl, rfl, ⟨rfl, rfl, rfl⟩, rfl, ⟨rfl, rfl⟩, ⟨rfl, rfl⟩, rfl, rfl⟩

theorem State.readByte_of_mem_eq {s t : State} (h : t.mem = s.mem) (a : Word) : t.readByte a = s.readByte a := by
  rw [State.readByte, State.readByte, h]

/-- Settles O26: a store that misses is its two byte writes. -/
theorem engineStoreWritesItsTwoBytes : Obligations.EngineStoreWritesItsTwoBytes := by
  intro s i a v hw h ha1 ha2
  obtain ⟨t, ht, hmem, hstore, hdraws, hsp, hpc, hcall, ho, hregs, hflag, hcontrol, hdevices⟩ := frame_of_engineStore s i a v h
  rw [State.memWrite_of_miss s a v ha1 ha2] at hmem hstore hdraws
  obtain ⟨hlo, hhi, hrest⟩ := storeBytes_frame s a v hw
  have hread := fun b => State.readByte_of_mem_eq hmem b
  exact ⟨t, ht, (hread _).trans hlo, (hread _).trans hhi, fun b hb => (hread b).trans (hrest b hb), hsp, hpc, hcall, ho,
    hregs, hflag, hcontrol, ⟨hstore, hdraws⟩, hdevices⟩

/-! ### A store on the command register -/

/-- The byte at the command register after such a store: the low one, or the high one (R44). -/
theorem storeBytes_command (s : State) (a v : Word) (hw : s.mem.wf = true) (ha : a = 0xE000#16 ∨ a = 0xDFFF#16) :
    (s.storeBytes a v).readByte Config.diskCmdAddr = if a = 0xE000#16 then lowByte v else highByte v := by
  obtain ⟨hlo, hhi, -⟩ := storeBytes_frame s a v hw
  obtain rfl | rfl := ha
  · exact hlo
  · exact hhi

/-- The dispatcher runs one command, with the arguments as the argument registers hold them (R44, R46). -/
theorem dispatch_eq_diskCommand (s : State) :
    ∃ d, d = s.diskCommand (Config.storageFails s.diskDraws) (s.readByte Config.diskCmdAddr)
        (s.readByte 0xE003#16 ++ s.readByte 0xE002#16) (s.readByte 0xE005#16 ++ s.readByte 0xE004#16)
        (s.readByte 0xE007#16 ++ s.readByte 0xE006#16) ∧
      s.dispatch.mem = d.mem ∧ s.dispatch.store = d.store :=
  ⟨_, rfl, State.diskCommand_of_same s { s with diskDraws := s.diskDraws + 1 } rfl rfl _ _ _ _ _⟩

/-- Settles O27: a store that hits is its two byte writes and one command on the state they leave. -/
theorem engineStoreToTheCommandRegisterDispatches : Obligations.EngineStoreToTheCommandRegisterDispatches := by
  intro s i a v hw h ha
  obtain ⟨t, ht, hmem, hstore, hdraws, hframe⟩ := frame_of_engineStore s i a v h
  rw [State.memWrite_of_hit s a v ha] at hmem hstore hdraws
  obtain ⟨d, hd, hdmem, hdstore⟩ := dispatch_eq_diskCommand (s.storeBytes a v)
  rw [storeBytes_command s a v hw ha] at hd
  obtain ⟨hlo, hhi, hrest⟩ := storeBytes_frame s a v hw
  exact ⟨s.storeBytes a v, d, t, rfl, hlo, hhi, hrest, hd, ht, hmem.trans hdmem, hstore.trans hdstore,
    hdraws.trans (State.diskDraws_dispatch _), hframe⟩

/-! ### Push and pop -/

theorem State.push16_sp (s : State) (v : Word) : (s.push16 v).sp = s.sp - 2 := by rw [State.push16_eq]

/-- Where the push runs no disk command, a pop after it reads the value pushed and brings `sp` back (R110, R111). `t` is the state
after the push, whatever happened to what a pop does not read. -/
theorem pop_after_push (s t : State) (v : Word) (hw : s.mem.wf = true) (h1 : s.sp ≠ 0xE000#16) (h2 : s.sp ≠ 0xDFFF#16)
    (hmem : t.mem = (s.push16 v).mem) (hsp : t.sp = (s.push16 v).sp) :
    t.readWord (add16 t.sp 2) = v ∧ add16 t.sp 2 = s.sp := by
  have hback : add16 t.sp 2 = s.sp := by rw [hsp, State.push16_sp]; exact BitVec.sub_add_cancel s.sp 2
  have hread : ∀ a, t.readByte a = (s.storeBytes s.sp v).readByte a := fun a => by
    rw [State.readByte, hmem, State.push16_eq, State.memWrite_of_miss s _ v h1 h2, State.readByte]
  obtain ⟨hlo, hhi, -⟩ := storeBytes_frame s s.sp v hw
  rw [hback]
  exact ⟨State.readWord_of_bytes t _ v ((hread _).trans hlo) ((hread _).trans hhi), rfl⟩

/-- Settles O35: `RET` pops what `CALL` pushed, the address after the `CALL`. -/
theorem retAfterCallReturns : Obligations.RetAfterCallReturns := by
  intro s a hw h1 h2
  obtain ⟨hvalue, hsp⟩ := pop_after_push (s.advance .call) { (s.advance .call).push16 (add16 s.pc 3) with pc := a }
    (add16 s.pc 3) hw h1 h2 rfl rfl
  exact ⟨_, _, exec_call a s, rfl, exec_ret _, hvalue, hsp⟩

/-- Settles O37: `POP` pops what `PUSH` pushed, and writes its own register only. -/
theorem popAfterPushGivesTheValueBack : Obligations.PopAfterPushGivesTheValueBack := by
  intro s r d hw h1 h2
  obtain ⟨hvalue, hsp⟩ := pop_after_push (s.advance .push) _ (s.reg r) hw h1 h2 rfl rfl
  refine ⟨_, _, exec_push r s, exec_pop d _, ?_, hsp, regsSameBut_of_set s _ d (s.reg r) ?_⟩
  · rw [State.reg_setReg_self, hvalue]
  · rw [State.setReg_regs, hvalue]
    simp

end Sys2Proof.Machine
end

section
/-! PROOFS. `LOADM`, `LOADR`, `POP`, `RET` (spec/40_data_transfer.md rules R81 and R83, spec/43_stack.md rule R113,
spec/42_control_flow.md rule R103), which read a word of memory, and `HALT` (R104). -/

namespace Sys2Proof.Machine

/-! ### The frame of one register write -/

theorem frame_setReg_advance (s : State) (m : Mnemonic) (r : Fin 8) (v : Word) (t : State)
    (ht : t = (s.advance m).setReg r v) :
    t.outcome = some .continued ∧ RegsSameBut [r] s t ∧ t.sp = s.sp ∧ t.zeroFlag = s.zeroFlag ∧ ControlSame s t ∧
      MemSame s t ∧ DevicesSame s t := by
  subst ht
  exact ⟨by simp, regsSameBut_setReg_advance s m r v, by simp, by simp, controlSame_setReg_advance s m r v,
    memSame_setReg_advance s m r v, devicesSame_setReg_advance s m r v⟩

/-! ### `LOADM`, `LOADR` -/

/-- Opcode, register byte, address low byte first (R61, R62). -/
theorem encode_loadm (r : Fin 8) (a : Word) :
    encode (.loadm (.gpr r) a) = [0x04#8, BitVec.ofNat 8 r.val, a.extractLsb' 0 8, a.extractLsb' 8 8] := by
  simp [encode, Config.opc, regBytes_eq, regByte, wordBytes, lowByte, highByte]

/-- Opcode, then the two register bytes (R61, R62). -/
theorem encode_loadr (d a : Fin 8) :
    encode (.loadr (.gpr d) (.gpr a)) = [0x10#8, BitVec.ofNat 8 d.val, BitVec.ofNat 8 a.val] := by
  simp [encode, Config.opc, regBytes_eq, regByte]

theorem advance_loadm_pc (s : State) : (s.advance .loadm).pc = s.pc + 4 := rfl

/-- Settles O24: the register takes the word read at the address operand. -/
theorem loadmReadsALittleEndianWord : Obligations.LoadmReadsALittleEndianWord := by
  intro s r a
  refine ⟨encode_loadm r a, _, exec_loadm r a s, ?value, advance_loadm_pc s, frame_setReg_advance s .loadm r _ _ rfl⟩
  case value => rw [State.reg_setReg_self, State.readWord_toNat]

/-- Settles O25: the address is the register's value in the state before the write. -/
theorem loadrReadsAtTheAddressRegister : Obligations.LoadrReadsAtTheAddressRegister := by
  intro s d a
  refine ⟨encode_loadr d a, _, exec_loadr d a s, ?value, ?pc, frame_setReg_advance s .loadr d _ _ rfl⟩
  case value => rw [State.reg_setReg_self, State.readWord_toNat]
  case pc => exact State.advance_pc_of_format_rr s .loadr rfl

/-! ### `POP`, `RET` -/

/-- Opcode, then the register byte (R61, R62). -/
theorem encode_pop (r : Fin 8) : encode (.pop (.gpr r)) = [0x0B#8, BitVec.ofNat 8 r.val] := by
  simp [encode, Config.opc, regBytes_eq, regByte]

/-- The word that a pop reads, its bytes two and three above `sp` (R36, R111). -/
theorem State.readWord_popped (s : State) :
    (s.readWord (add16 s.sp 2)).toNat = (s.readByte (s.sp + 2)).toNat + 256 * (s.readByte (s.sp + 3)).toNat := by
  have hnext : add16 (add16 s.sp 2) 1 = s.sp + 3 := BitVec.add_assoc s.sp 2 1
  rw [State.readWord_toNat, hnext]

/-- Settles O36: the register takes the word popped, and `sp` rises. -/
theorem popReadsTheTopCell : Obligations.PopReadsTheTopCell := by
  intro s r
  obtain ⟨ho, hregs, -, hflag, hcontrol, hmem, hdevices⟩ :=
    frame_setReg_advance s .pop r (s.readWord (add16 s.sp 2)) _ rfl
  refine ⟨encode_pop r, _, exec_pop r s, rfl, ?value, ?pc, ho, hregs, hflag, hcontrol, hmem, hdevices⟩
  case value => rw [State.reg_setReg_self, State.readWord_popped]
  case pc => exact State.advance_pc_of_format_r s .pop rfl

/-- Settles O33: `pc` takes the word popped. -/
theorem retPopsPc : Obligations.RetPopsPc := by
  intro s
  obtain ⟨ho, hregs, -, hflag, hcontrol, hmem, hdevices⟩ :=
    frame_advance_setPc s .ret (s.readWord (add16 s.sp 2)) _ rfl
  exact ⟨rfl, _, exec_ret s, rfl, State.readWord_popped s, ho, hregs, hflag, hcontrol, hmem, hdevices⟩

/-! ### `HALT` -/

/-- Settles O34: the machine has stopped with the outcome that every later step answers. -/
theorem haltClearsRunning : Obligations.HaltClearsRunning := by
  intro s
  have hregs : RegsSameBut [] s (s.advance .halt).stopHalted := fun r _ => State.reg_advance s .halt r
  have hmem : MemSame s (s.advance .halt).stopHalted := State.readByte_advance s .halt
  have hdevices : DevicesSame s (s.advance .halt).stopHalted := by
    simp [DevicesSame, DiskSame, QueueSame, CursorSame, HinSame, HoutSame, DiagSame]
  have hstay : step (s.advance .halt).stopHalted = .next (s.advance .halt).stopHalted := step_of_stopped _ rfl
  exact ⟨rfl, _, exec_halt s, rfl, rfl, rfl, rfl, rfl, hregs, rfl, rfl, hmem, hdevices, hstay⟩

end Sys2Proof.Machine
end

section
/-! PROOFS. `IN` and `OUT` (spec/44_io.md rules R122 and R123) in either mode. -/

namespace Sys2Proof.Machine

/-! ### `IN` -/

/-- Settles O39: a dequeue gives the oldest code, or none, and then nothing but the outcome is written. -/
theorem interactiveInDequeuesOrBlocks : Obligations.InteractiveInDequeuesOrBlocks := by
  intro s r hmode
  refine ⟨fun c rest hcontents => ?_, fun hempty => ?_⟩
  · obtain ⟨hdequeue, hrest, -⟩ := s.inq.dequeue?_of_contents c rest hcontents
    have hexec : exec (.inp (.gpr r)) s =
        .next (State.setReg { s.advance .inp with inq := { s.inq with head := s.inq.head + 1 } } r (zext16 c)) := by
      rw [exec_inp, if_pos hmode, inInteractive, State.advance_inq, hdequeue]
    obtain ⟨ho, hregs, hsp, hflag, hcontrol, hmem, hdisk, -, hcursor, hhin, hhout, hdiag⟩ :=
      frame_setReg_advance s .inp r (zext16 c) _ rfl
    refine ⟨_, hexec, ?_, hrest, State.advance_pc_of_format_r s .inp rfl, ho, hregs, hsp, hflag, hcontrol, hmem, hdisk,
      hcursor, hhin, hhout, hdiag⟩
    rw [State.reg_setReg_self, zext16_toNat]
  · exact exec_inp_of_empty s r hmode (s.inq.contents_eq_nil.mp hempty)

/-- Settles O40: the stream has a byte, or has ended, or is still awaited. -/
theorem headlessInReadsHaltsOrWaits : Obligations.HeadlessInReadsHaltsOrWaits := by
  intro s r hmode
  have hexec : exec (.inp (.gpr r)) s = inHeadless r (s.advance .inp) := by rw [exec_inp, hmode]; rfl
  refine ⟨fun b rest hhin => ?_, fun hhin hend => ?_, fun hhin hend => ?_⟩
  · have hread : exec (.inp (.gpr r)) s = .next (State.setReg { s.advance .inp with hin := rest } r (zext16 b)) := by
      rw [hexec, inHeadless, State.advance_hin, hhin]
    obtain ⟨ho, hregs, hsp, hflag, hcontrol, hmem, hdisk, hqueue, hcursor, -, hhout, hdiag⟩ :=
      frame_setReg_advance s .inp r (zext16 b) _ rfl
    refine ⟨_, hread, ?_, rfl, rfl, State.advance_pc_of_format_r s .inp rfl, ho, hregs, hsp, hflag, hcontrol, hmem, hdisk,
      hqueue, hcursor, hhout, hdiag⟩
    rw [State.reg_setReg_self, zext16_toNat]
  · exact exec_inp_of_ended s r hmode hhin hend
  · simp [hexec, inHeadless, hhin, hend]

/-! ### `OUT` -/

/-- Opcode, then the register byte (R61, R62). -/
theorem encode_out (r : Fin 8) : encode (.out (.gpr r)) = [0x0F#8, BitVec.ofNat 8 r.val] := by
  simp [encode, Config.opc, regBytes_eq, regByte]

/-- What both ways of `OUT` leave alone. -/
def OutFrame (s t : State) : Prop :=
  t.pc = s.pc + 2 ∧ t.outcome = some .continued ∧ RegsSameBut [] s t ∧ t.sp = s.sp ∧ t.zeroFlag = s.zeroFlag ∧
    ControlSame s t ∧ DiskSame s t ∧ QueueSame s t ∧ HinSame s t ∧ DiagSame s t

theorem outFrame_advance (s : State) : OutFrame s (s.advance .out) :=
  ⟨State.advance_pc_of_format_r s .out rfl, rfl, fun _ _ => rfl, rfl, rfl, ⟨rfl, rfl, rfl⟩, ⟨rfl, rfl⟩, rfl, ⟨rfl, rfl⟩, rfl⟩

/-- `put_char` writes memory and the cursor, none of which the frame speaks of. -/
theorem OutFrame.putChar {s t : State} (h : OutFrame s t) (c : Byte) : OutFrame s (t.putChar c) := by
  rw [State.putChar_eq]
  exact h

/-- Nor does it speak of `HOUT`. -/
theorem OutFrame.setHout {s t : State} (h : OutFrame s t) (bs : List Byte) : OutFrame s { t with hout := bs } := h

/-- Settles O41: `put_char` does not look at what moving on changes, and writes in the display window only. -/
theorem outPassesTheLowByte : Obligations.OutPassesTheLowByte := by
  rintro s r ⟨hw, hx, hy⟩
  refine ⟨encode_out r, ?_⟩
  cases hmode : s.interactive
  case true =>
    have hexec : exec (.out (.gpr r)) s = .next ((s.advance .out).putChar (lowByte (s.reg r))) := by
      rw [exec_out, if_pos hmode]
    have hwindow : MemSameBut 0xF000#16 2400 s ((s.advance .out).putChar (lowByte (s.reg r))) := fun a ha =>
      State.readByte_putChar_outside (s.advance .out) _ a hw hx hy ha
    have hput : (s.advance .out).putChar (lowByte (s.reg r)) = (s.putChar (lowByte (s.reg r))).advance .out :=
      State.putChar_advance s .out _
    refine ⟨_, hexec, fun _ => ⟨?_, ?_, ?_, hwindow, State.putChar_hout ..⟩, nofun, (outFrame_advance s).putChar _⟩
    all_goals rw [hput]; rfl
  case false =>
    have hexec : exec (.out (.gpr r)) s = .next { s.advance .out with hout := s.hout ++ [lowByte (s.reg r)] } := by
      rw [exec_out, hmode]
      rfl
    exact ⟨_, hexec, nofun, fun _ => ⟨rfl, State.readByte_advance s .out, rfl, rfl⟩, (outFrame_advance s).setHout _⟩

end Sys2Proof.Machine
end

section
/-! PROOFS. The control bytes and the scroll of the console (spec/60_exceptions.md rules R161, R162, R164 and R165). -/

namespace Sys2Proof.Machine

/-! ### The control bytes -/

/-- Within the grid no scroll follows a move of the cursor (R165). -/
theorem State.consoleScroll_of_lt (s : State) (h : s.curY < 30) : s.consoleScroll = s :=
  State.consoleScroll_of_not_past s h.ne

/-- Off column 0 of the first row a backspace goes one cell left (R164). -/
theorem State.putChar_backspace_of_pos (s : State) (hy : s.curY < 30) (hx : 0 < s.curX) :
    s.putChar 0x08#8 = { s with curX := s.curX - 1 } := by
  rw [State.putChar_backspace, State.consoleBackspace, if_pos hx, State.consoleScroll_of_lt]
  exact hy

/-- From column 0 a backspace goes to the end of the row above (R164). -/
theorem State.putChar_backspace_of_zero (s : State) (hy : s.curY < 30) (hx : s.curX = 0) (hpos : 0 < s.curY) :
    s.putChar 0x08#8 = { s with curX := 79, curY := s.curY - 1 } := by
  have hup : s.curY - 1 < 30 := by omega
  rw [State.putChar_backspace, State.consoleBackspace, if_neg (by omega), if_pos hpos]
  exact State.consoleScroll_of_lt { s with curX := 79, curY := s.curY - 1 } hup

/-- At the first cell a backspace does nothing (R164). -/
theorem State.putChar_backspace_of_origin (s : State) (hx : s.curX = 0) (hy : s.curY = 0) : s.putChar 0x08#8 = s := by
  rw [State.putChar_backspace, State.consoleBackspace, if_neg (by omega), if_neg (by omega), State.consoleScroll_of_lt]
  omega

/-- Settles O43: only a newline on the last row leaves the grid, and then the scroll follows. -/
theorem controlBytesMoveTheCursor : Obligations.ControlBytesMoveTheCursor := by
  intro s hy
  refine ⟨fun hrow => ?newline, fun hrow => ?last, ?carriageReturn, s.putChar_backspace_of_pos hy,
    s.putChar_backspace_of_zero hy, s.putChar_backspace_of_origin⟩
  case newline =>
    rw [State.putChar_newline, State.consoleNewline, State.consoleScroll_of_lt]
    exact Nat.succ_lt_succ hrow
  case last => rw [State.putChar_newline, State.consoleNewline, hrow]
  case carriageReturn =>
    rw [State.putChar_return, State.consoleReturn, State.consoleScroll_of_lt]
    exact hy

/-! ### The scroll -/

/-- The cell at (`y`, `x`) after a scroll is the byte of its number `k` in the scrolled display (R165). -/
theorem State.displayCell_consoleScroll (s : State) (hw : s.mem.wf = true) (hpast : s.curY = 30) (y x : Nat) (hy : y < 30)
    (hx : x < 80) (k : Nat) (hcell : 80 * y + x = k) (hk : k < s.scrolledDisplay.length) :
    s.consoleScroll.displayCell y x = s.scrolledDisplay[k] := by
  rw [State.displayCell, cellAddr_eq_add16 y x hy hx, hcell, State.readByte_consoleScroll_cell s hpast hw k hk]

theorem State.displayCell_consoleScroll_moved (s : State) (hw : s.mem.wf = true) (hpast : s.curY = 30) (y x : Nat)
    (hy : y < 29) (hx : x < 80) : s.consoleScroll.displayCell y x = s.displayCell (y + 1) x := by
  have hk : 80 * y + x < s.scrolledDisplay.length := by rw [State.length_scrolledDisplay]; omega
  rw [s.displayCell_consoleScroll hw hpast y x (by omega) hx _ rfl hk, s.scrolledDisplay_moved y x hy hx, State.displayCell]

theorem State.displayCell_consoleScroll_cleared (s : State) (hw : s.mem.wf = true) (hpast : s.curY = 30) (x : Nat)
    (hx : x < 80) : s.consoleScroll.displayCell 29 x = 0x00#8 := by
  have hk : 2320 + x < s.scrolledDisplay.length := by rw [State.length_scrolledDisplay]; omega
  rw [s.displayCell_consoleScroll hw hpast 29 x (by omega) hx _ rfl hk, s.scrolledDisplay_cleared x hk,
    Config.consoleClearByte]

/-- A scroll past the last row writes memory and the cursor's row. -/
theorem State.consoleScroll_eq_of_past (s : State) (hpast : s.curY = 30) :
    s.consoleScroll = { s with mem := s.consoleScroll.mem, curY := 29 } := by
  obtain ⟨m, y, h⟩ := s.consoleScroll_shape
  have hrow : y = 29 := by rw [← s.consoleScroll_curY_of_past hpast, h]
  rw [h, hrow]

/-- Settles O45: cell by cell, the display is the scrolled one. -/
theorem scrollMovesRowsUp : Obligations.ScrollMovesRowsUp := by
  intro s hw
  exact ⟨s.consoleScroll_of_not_past, fun hpast => ⟨_, rfl, s.consoleScroll_eq_of_past hpast,
    s.displayCell_consoleScroll_moved hw hpast, s.displayCell_consoleScroll_cleared hw hpast,
    fun a ha => s.readByte_consoleScroll_outside a hw ha⟩⟩

end Sys2Proof.Machine
end

section
/-! PROOFS. The Disk Controller (spec/60_exceptions.md rules R150 to R155, spec/20_memory.md rule R45): each command is its runs of
byte writes or its one new entry, and none of a device's writes dispatches. -/

namespace Sys2Proof.Machine

/-! ### Each command by its code (R150) -/

theorem State.diskCommand_dropped (s : State) (cmd : Byte) (np dp sz : Word) : s.diskCommand true cmd np dp sz = s := rfl

theorem State.diskCommand_list (s : State) (np dp sz : Word) : s.diskCommand false 1#8 np dp sz = s.diskList dp := rfl

theorem State.diskCommand_read (s : State) (np dp sz : Word) : s.diskCommand false 2#8 np dp sz = s.diskRead np dp := rfl

theorem State.diskCommand_write (s : State) (np dp sz : Word) : s.diskCommand false 3#8 np dp sz = s.diskWrite np dp sz := rfl

theorem State.diskCommand_unknown (s : State) (fails : Bool) (cmd : Byte) (np dp sz : Word) (h1 : cmd ≠ 1#8)
    (h2 : cmd ≠ 2#8) (h3 : cmd ≠ 3#8) : s.diskCommand fails cmd np dp sz = s := by
  rw [State.diskCommand, if_neg h1, if_neg h2, if_neg h3, ite_self]

/-- Settles O47: a dropped command and an unknown code answer the state itself. -/
theorem droppedOrUnknownCommandDoesNothing : Obligations.DroppedOrUnknownCommandDoesNothing := by
  rintro s fails cmd np dp sz (rfl | ⟨h1, h2, h3⟩)
  · exact s.diskCommand_dropped cmd np dp sz
  · exact s.diskCommand_unknown fails cmd np dp sz h1 h2 h3

/-! ### List -/

/-- Byte `k` of the directory, where no later byte of it falls on the same address (R152). -/
theorem State.readByte_diskList (s : State) (dp : Word) (k : Nat) (hw : s.mem.wf = true)
    (hk : k < (listBytes s.store).length) (hl : 17 * s.store.length < k + 65536) :
    (s.diskList dp).readByte (dp + BitVec.ofNat 16 k) = (listBytes s.store)[k] := by
  have hlen := length_listBytes s.store
  exact State.readByte_rawWrites_at s dp _ k hw hk (by omega)

theorem State.memSameBut_diskList (s : State) (dp : Word) (hw : s.mem.wf = true) :
    MemSameBut dp (17 * s.store.length + 1) s (s.diskList dp) := by
  intro a ha
  rw [← length_listBytes] at ha
  exact State.readByte_rawWrites_of_not_mem s dp a _ hw ha

/-- Settles O48: the directory is one run of writes, whose bytes are the names, the newlines and the zero byte. -/
theorem listWritesTheDirectory : Obligations.ListWritesTheDirectory := by
  intro s np dp sz hw
  have hlen := length_listBytes s.store
  refine ⟨_, s.diskCommand_list np dp sz, rfl, fun i j hi hj hl => ?name, fun i hi hl => ?newline, ?zero,
    s.memSameBut_diskList dp hw⟩
  case name =>
    rw [s.readByte_diskList dp _ hw (by omega) hl]
    exact listBytes_name s.store i j hi hj _
  case newline =>
    rw [s.readByte_diskList dp _ hw (by omega) hl]
    exact listBytes_newline s.store i hi _
  case zero =>
    rw [s.readByte_diskList dp _ hw (by omega) (by omega)]
    exact listBytes_end s.store _

/-! ### The key (R153) -/

theorem State.getElem_nameKey (s : State) (np : Word) (j : Nat) (h : j < 16) :
    (s.nameKey np)[j] = if j < 15 then s.readByte (np + BitVec.ofNat 16 j) else 0x00#8 := by
  simp [State.nameKey]

/-- The bytes of the key determine it. -/
theorem State.nameKey_eq (s : State) (np : Word) (key : Vector Byte 16)
    (h : ∀ j (h : j < 16), key[j] = if j < 15 then s.readByte (np + BitVec.ofNat 16 j) else 0x00#8) : s.nameKey np = key :=
  Vector.ext fun j hj => by rw [s.getElem_nameKey np j hj, h j hj]

/-! ### Read-by-name -/

theorem State.diskRead_of_none (s : State) (np dp : Word) (h : ∀ e ∈ s.store, e.name ≠ s.nameKey np) :
    s.diskRead np dp = s := by
  have hfind : (s.store.find? fun e => decide (e.name = s.nameKey np)) = none :=
    List.find?_eq_none.mpr fun e he => by simpa using h e he
  simp only [State.diskRead, hfind]

/-- The first match is read: its payload, then its size in the size register. -/
def State.readEntry (s : State) (dp : Word) (e : DirEntry) : State :=
  (s.rawWrites dp e.payload).storeBytes Config.diskSizeAddr (BitVec.ofNat 16 e.payload.length)

theorem State.diskRead_of_match (s : State) (np dp : Word) (before after : List DirEntry) (e : DirEntry)
    (hstore : s.store = before ++ e :: after) (hbefore : ∀ d ∈ before, d.name ≠ s.nameKey np)
    (he : e.name = s.nameKey np) : s.diskRead np dp = s.readEntry dp e := by
  have hfind : (s.store.find? fun d => decide (d.name = s.nameKey np)) = some e :=
    List.find?_eq_some_iff_append.mpr ⟨by simpa using he, before, after, hstore, fun d hd => by simpa using hbefore d hd⟩
  simp only [State.diskRead, hfind]
  rfl

/-- The size register afterwards, even where the payload covers it (R154). -/
theorem State.readEntry_size (s : State) (dp : Word) (e : DirEntry) (hw : s.mem.wf = true) :
    ((s.readEntry dp e).readByte 0xE006#16).toNat + 256 * ((s.readEntry dp e).readByte 0xE007#16).toNat =
      e.payload.length % 65536 := by
  obtain ⟨hlo, hhi, -⟩ := storeBytes_frame (s.rawWrites dp e.payload) Config.diskSizeAddr
    (BitVec.ofNat 16 e.payload.length) (State.wf_rawWrites s dp _ hw)
  have hword := State.readWord_of_bytes (s.readEntry dp e) Config.diskSizeAddr _ hlo hhi
  have h := State.readWord_toNat (s.readEntry dp e) Config.diskSizeAddr
  rw [hword, BitVec.toNat_ofNat] at h
  exact h.symm

/-- Off the size register, the payload's run of writes is what is read back. -/
theorem State.readByte_readEntry (s : State) (dp : Word) (e : DirEntry) (hw : s.mem.wf = true) (a : Word)
    (h6 : a ≠ 0xE006#16) (h7 : a ≠ 0xE007#16) : (s.readEntry dp e).readByte a = (s.rawWrites dp e.payload).readByte a := by
  rw [State.readEntry, State.readByte_storeBytes _ _ _ _ (State.wf_rawWrites s dp _ hw)]
  exact (if_neg h7).trans (if_neg h6)

theorem State.readByte_readEntry_payload (s : State) (dp : Word) (e : DirEntry) (hw : s.mem.wf = true) (k : Nat)
    (hk : k < e.payload.length) (hl : e.payload.length ≤ k + 65536) (h6 : dp + BitVec.ofNat 16 k ≠ 0xE006#16)
    (h7 : dp + BitVec.ofNat 16 k ≠ 0xE007#16) : (s.readEntry dp e).readByte (dp + BitVec.ofNat 16 k) = e.payload[k] := by
  rw [s.readByte_readEntry dp e hw _ h6 h7]
  exact State.readByte_rawWrites_at s dp e.payload k hw hk hl

/-- Settles O49: the search answers none, or the entry that no match stands before. -/
theorem readByNameCopiesTheFirstMatch : Obligations.ReadByNameCopiesTheFirstMatch := by
  intro s np dp sz key hw hkey
  obtain rfl := s.nameKey_eq np key hkey
  refine ⟨s.diskRead_of_none np dp, fun before e after hstore hbefore he => ⟨s.readEntry dp e, ?_, rfl,
    s.readEntry_size dp e hw, s.readByte_readEntry_payload dp e hw, fun a h6 h7 ha => ?_⟩⟩
  · rw [s.diskCommand_read, s.diskRead_of_match np dp before after e hstore hbefore he]
  · rw [s.readByte_readEntry dp e hw a h6 h7]
    exact State.readByte_rawWrites_of_not_mem s dp a e.payload hw ha

/-! ### Write-by-name -/

/-- The entry that Write-by-name appends (R155). -/
def State.newEntry (s : State) (np dp sz : Word) : DirEntry :=
  { name := s.nameKey np, payload := s.readBytes dp sz.toNat }

theorem State.diskWrite_of_room (s : State) (np dp sz : Word) (h : s.store.length < 65535) :
    s.diskWrite np dp sz = { s with store := s.store ++ [s.newEntry np dp sz] } := by
  rw [State.diskWrite, appendEntry, if_pos h]
  rfl

theorem State.length_newEntry_payload (s : State) (np dp sz : Word) :
    (s.newEntry np dp sz).payload.length = sz.toNat := s.length_readBytes dp _

theorem State.getElem_newEntry_payload (s : State) (np dp sz : Word) (k : Nat)
    (h : k < (s.newEntry np dp sz).payload.length) :
    (s.newEntry np dp sz).payload[k] = s.readByte (dp + BitVec.ofNat 16 k) := s.getElem_readBytes dp _ k h

/-- Settles O50: the entry's name is the key and its payload the bytes read. -/
theorem writeByNameAppendsOneEntry : Obligations.WriteByNameAppendsOneEntry := by
  intro s np dp sz hroom
  exact ⟨s.newEntry np dp sz, s.diskWrite_of_room np dp sz hroom, s.getElem_nameKey np, s.length_newEntry_payload np dp sz,
    s.getElem_newEntry_payload np dp sz⟩

theorem State.diskWrite_of_empty (s : State) (np dp sz : Word) (h : s.store = []) :
    s.diskWrite np dp sz = { s with store := [s.newEntry np dp sz] } := by
  rw [s.diskWrite_of_room np dp sz (by rw [h]; decide), h, List.nil_append]

theorem State.nameKey_setStore (s : State) (es : List DirEntry) (np : Word) :
    ({ s with store := es } : State).nameKey np = s.nameKey np := rfl

/-- The only entry is read where it has the name. -/
theorem State.diskRead_setStore_singleton (s : State) (np dp : Word) (e : DirEntry) (he : e.name = s.nameKey np) :
    State.diskRead { s with store := [e] } np dp = State.readEntry { s with store := [e] } dp e :=
  State.diskRead_of_match _ np dp [] [] e rfl (by simp) (by rw [State.nameKey_setStore, he])

/-- Settles O51: the entry written is the whole store, and its payload is the bytes read before. -/
theorem readAfterWriteGivesTheBytesBack : Obligations.ReadAfterWriteGivesTheBytesBack := by
  intro s np source target size other hw hempty
  have hlen := s.length_newEntry_payload np source size
  have hfits := size.isLt
  have hw' : ({ s with store := [s.newEntry np source size] } : State).mem.wf = true := hw
  rw [State.diskCommand_read, State.diskCommand_write, s.diskWrite_of_empty np source size hempty,
    s.diskRead_setStore_singleton np target (s.newEntry np source size) rfl]
  refine ⟨_, rfl, ?_, fun k hk h6 h7 => ?_⟩
  · rw [State.readEntry_size _ target _ hw', hlen, Nat.mod_eq_of_lt hfits]
  · rw [State.readByte_readEntry_payload _ target _ hw' k (by omega) (by omega) h6 h7, s.getElem_newEntry_payload]

/-! ### No device write dispatches (R45) -/

theorem State.store_diskRead (s : State) (np dp : Word) : (s.diskRead np dp).store = s.store := by
  simp only [State.diskRead]
  split <;> rfl

/-- Only Write-by-name changes the disk store. -/
theorem State.store_diskCommand_of_ne (s : State) (fails : Bool) (cmd : Byte) (np dp sz : Word) (h : cmd ≠ 3#8) :
    (s.diskCommand fails cmd np dp sz).store = s.store := by
  rw [State.diskCommand, if_neg h]
  split_ifs
  · rfl
  · rfl
  · exact s.store_diskRead np dp
  · rfl

/-- Settles O52: the writes of a command, of `put_char` and of a load are raw, so they take no draw. -/
theorem deviceWritesNeverDispatch : Obligations.DeviceWritesNeverDispatch := by
  intro s
  refine ⟨fun fails cmd np dp sz => ⟨s.diskCommand_diskDraws fails cmd np dp sz, s.store_diskCommand_of_ne fails cmd np dp sz⟩,
    fun c => ⟨s.putChar_store c, s.putChar_diskDraws c⟩, fun image t h => ?_⟩
  obtain ⟨-, -, -, rfl⟩ := s.load_cases t image h
  exact ⟨rfl, rfl⟩

end Sys2Proof.Machine
end
